-- ==== Sys2Proof/Word.lean ====
section
/-! DEFINITION. The values of the block (spec/00_scope.md R14): unsigned 32-bit words and unsigned bytes. Their arithmetic is
core Lean's on bit vectors: `a + b` and `a * b` are R14's `a +32 b` and `a *32 b`. -/

namespace Sys2Proof

/-- `u32` of R14. -/
abbrev Word := BitVec 32

/-- `u8` of R14. -/
abbrev Byte := BitVec 8

end Sys2Proof
end

