-- ==== Sys2Proof/Syntax.lean ====
section
/-! DEFINITION. The commands (spec/30_encoding.md R86): one constructor per row of spec/opcode_table.json. -/

namespace Sys2Proof

/-- A command of the engine. Every operand but INDEX's comes from a register (R83). -/
inductive Instr where
  | nop
  | config
  | hash
  | hashPair
  | insert
  | query
  | /-- INDEX, with its iteration number `i` (IMM16, R82, R83). -/ index (i : Nat)
  deriving DecidableEq, Repr

end Sys2Proof
end

