-- ==== Sys2Proof/WellFormed.lean ====
section
/-! DEFINITION. Which commands can be written as a command word (spec/30_encoding.md R82, R83): the only operand is INDEX's
16-bit `i`. -/

namespace Sys2Proof

/-- The command has an encoding: INDEX's `i` fits IMM16, `0 <= i <= 65535` (R83, spec/41_index_generator.md R130). -/
def Instr.wellFormed : Instr → Bool
  | .nop => true
  | .config => true
  | .hash => true
  | .hashPair => true
  | .insert => true
  | .query => true
  | .index i => decide (i ≤ 65535)

end Sys2Proof
end

