-- ==== Sys2Proof/Decode.lean ====
section
/-! DEFINITION. The command word, format C (spec/30_encoding.md R80 to R87): its fields, the decoder with the reason of each
rejection, the encoder, and the opcode map's rows. -/

namespace Sys2Proof

/-- Why a command word is illegal (R80 steps 1 to 3, R87). Each raises ILLEGAL_CMD when the word is performed. -/
inductive DecodeError where
  | /-- Step 1: RES, bits [15:4], is not 0. -/ reservedBits
  | /-- Step 2: OP is 0x7 to 0xF. -/ reservedOpcode
  | /-- Step 3: IMM16 is not 0 and OP is not INDEX. -/ strayImmediate
  deriving DecidableEq, Repr

/-- OP, bits [3:0] (R82). -/
def opField (c : Word) : BitVec 4 := c.extractLsb' 0 4

/-- RES, bits [15:4] (R82). -/
def resField (c : Word) : BitVec 12 := c.extractLsb' 4 12

/-- IMM16, bits [31:16] (R82). -/
def immField (c : Word) : BitVec 16 := c.extractLsb' 16 16

/-- The command an opcode selects (R86, table), INDEX with the zero-extended `imm` (R83); none for a reserved opcode. -/
def selectOpcode (op : BitVec 4) (imm : BitVec 16) : Option Instr :=
  match op.toNat with
  | 0 => some .nop
  | 1 => some .config
  | 2 => some .hash
  | 3 => some .hashPair
  | 4 => some .insert
  | 5 => some .query
  | 6 => some (.index imm.toNat)
  | _ => none

/-- The decoder: R80's steps in order, on any word. -/
def decode (c : Word) : Except DecodeError Instr :=
  if resField c ≠ 0 then .error .reservedBits
  else match selectOpcode (opField c) (immField c) with
    | none => .error .reservedOpcode
    | some i => if opField c ≠ 6 ∧ immField c ≠ 0 then .error .strayImmediate else .ok i

/-- A command word from its fields (R82): IMM16, twelve zeros, OP. -/
def commandWord (imm : BitVec 16) (op : BitVec 4) : Word := imm ++ 0#12 ++ op

/-- The encoder (R82, R86): the word of a well-formed command. -/
def encode : Instr → Word
  | .nop => commandWord 0 0x0
  | .config => commandWord 0 0x1
  | .hash => commandWord 0 0x2
  | .hashPair => commandWord 0 0x3
  | .insert => commandWord 0 0x4
  | .query => commandWord 0 0x5
  | .index i => commandWord (BitVec.ofNat 16 i) 0x6

/-- A row of the opcode map: `c` selects it when `c & mask = match` (R86). -/
structure OpcodeRow where
  pattern : Word
  mask : Word
  deriving DecidableEq, Repr

/-- `c & mask = match` (R86). -/
def OpcodeRow.selects (r : OpcodeRow) (c : Word) : Bool := c &&& r.mask == r.pattern

/-- The seven rows of the opcode map (R86, spec/opcode_table.json), in its order. -/
def opcodeRows : List OpcodeRow :=
  [⟨0x00000000, 0xFFFFFFFF⟩, ⟨0x00000001, 0xFFFFFFFF⟩, ⟨0x00000002, 0xFFFFFFFF⟩, ⟨0x00000003, 0xFFFFFFFF⟩,
   ⟨0x00000004, 0xFFFFFFFF⟩, ⟨0x00000005, 0xFFFFFFFF⟩, ⟨0x00000006, 0x0000FFFF⟩]

/-- The place of a command's row in `opcodeRows`. -/
def rowNumber : Instr → Nat
  | .nop => 0
  | .config => 1
  | .hash => 2
  | .hashPair => 3
  | .insert => 4
  | .query => 5
  | .index _ => 6

/-- The instruction the decoder reads from a word of `nbits` bits numbered as spec/opcode_table.json numbers them. A command
is one 32-bit word (R81), so the word is `w`'s low `nbits` bits with zeros above. -/
def decodeTableWord (nbits w : Nat) : Option Instr :=
  match decode (BitVec.ofNat 32 (w % 2 ^ nbits)) with
  | .ok i => some i
  | .error _ => none

end Sys2Proof
end

