-- ==== Sys2Proof/Config.lean ====
section
/-! DEFINITION. The parameters an implementation fixes (spec/00_scope.md R7 to R12, spec/20_memory.md R50;
92_eei_decisions.md "Open parameters") and the free values of the model. -/

namespace Sys2Proof

/-- `IDX_MODE` (R10): the width at which `h1 + i*h2` is computed. -/
inductive IdxMode where
  | /-- WRAP32, the spec's decision (D11): the sum mod 2^32. -/ wrap32
  | /-- EXACT, the alternative: the exact sum. -/ exactSum
  deriving DecidableEq, Repr

/-- `TAIL_EXT` (R11): how a tail byte is widened. -/
inductive TailExt where
  | /-- ZERO, the spec's decision (D12): zero extension. -/ zero
  | /-- SIGN, the alternative: sign extension. -/ sign
  deriving DecidableEq, Repr

/-- The implementation parameters. They are configuration, not state (R20): no step changes them. -/
structure Params where
  /-- `BIT_COUNT_MAX` (R7): the number of bit cells. -/
  bitCountMax : Nat
  /-- `ITEM_MAX` (R9): the capacity of the item buffer in bytes. -/
  itemMax : Nat
  /-- `IDX_MODE` (R10). -/
  idxMode : IdxMode
  /-- `TAIL_EXT` (R11). -/
  tailExt : TailExt
  /-- `HASH_LANES` (R12): timing only, no rule depends on it (log 16). -/
  hashLanes : Nat
  /-- `MH3BF_BASE` (R50): where the platform puts the block (log 16). -/
  base : Nat
  deriving DecidableEq, Repr

/-- The ranges the spec gives the parameters (R7, R9, R12). -/
abbrev Params.Valid (p : Params) : Prop :=
  (1 ≤ p.bitCountMax ∧ p.bitCountMax ≤ 2 ^ 32 - 1) ∧
  (p.itemMax % 4 = 0 ∧ 4 ≤ p.itemMax ∧ p.itemMax ≤ 2048) ∧
  1 ≤ p.hashLanes

/-- DESIGN CHOICE (log 4): the parameters of State.reset, those of the programs of 95_test_vectors.md, with the decided
IDX_MODE and TAIL_EXT. Nothing is stated of this choice: statements hold for every value of the parameters. -/
def Params.reference : Params :=
  { bitCountMax := 4096, itemMax := 64, idxMode := .wrap32, tailExt := .zero, hashLanes := 1, base := 0 }

/-- The platform address of block offset `off` (R50). -/
def Params.platformAddress (p : Params) (off : Word) : Nat := p.base + off.toNat

/-- FREE VALUE (log 11; R53, I2): the byte the `n`-th draw gives for a bus read of an item cell never written. -/
opaque Config.freeByte : Nat → Byte

/-- FREE VALUE (log 1; R70, R75, I11): the finite number of host accesses that fall between a CMD write and the engine's
step, for the command whose draw is the `n`-th. -/
opaque Config.engineDelay : Nat → Nat

end Sys2Proof
end

