-- ==== Sys2Proof/Machine/State.lean ====
section
/-! DEFINITION. The state of the block and of the host that drives it (spec/10_state.md R20 to R44, spec/00_scope.md R17), as
plain data, and the state right after reset (R44, spec/70_reset_and_hazards.md R190). -/

namespace Sys2Proof.Machine

/-- The values STATUS.ERR takes (spec/60_exceptions.md R170). The reserved codes 9 to 15 are never written, so they have no
name here (I7). -/
inductive ErrCode where
  | /-- 0 NONE: no error recorded. -/ none
  | /-- 1 ILLEGAL_CMD. -/ illegalCmd
  | /-- 2 NOT_CONFIGURED. -/ notConfigured
  | /-- 3 CONFIG_LOCKED. -/ configLocked
  | /-- 4 BAD_CONFIG. -/ badConfig
  | /-- 5 ITEM_LEN. -/ itemLen
  | /-- 6 BUSY. -/ busy
  | /-- 7 BAD_ACCESS. -/ badAccess
  | /-- 8 ZERO_MODULUS. -/ zeroModulus
  deriving DecidableEq, Repr

/-- The twelve registers (R20 (a), R21 and the register map). -/
inductive Reg where
  | id | version | cmd | status | bitCount | hashCount | itemLen | seed | hashOut | h1 | h2 | idxOut
  deriving DecidableEq, Repr

/-- What a mapped bus access names (spec/20_memory.md R51 to R55). -/
inductive Target where
  | /-- A register. -/ reg (r : Reg)
  | /-- Item byte `ITEM[a]`, an 8-bit access. -/ itemByte (a : Nat)
  | /-- Item bytes `ITEM[a .. a+3]`, `a` a multiple of 4, a 32-bit access. -/ itemWord (a : Nat)
  | /-- Word `w` of the bit array. -/ windowWord (w : Nat)
  deriving DecidableEq, Repr

/-- An event from outside the block: an element of the host's program (spec/30_encoding.md R90, R91) or a platform reset
(spec/70_reset_and_hazards.md R190). Offsets are relative to MH3BF_BASE (R50). -/
inductive HostOp where
  | /-- `MemRead(off, n)`: a bus read of `n` bytes; its value goes to `v`. -/ read (off : Word) (n : Nat)
  | /-- `MemWrite(off, n, v)`: a bus write of `n` bytes (log 12). -/ write (off : Word) (n : Nat) (v : Word)
  | /-- `poll` (R91): `r32 STATUS`, again and again until `v[0]` is 0. -/ poll
  | /-- The platform resets the block (R190). -/ platformReset
  deriving DecidableEq, Repr

/-- Why the machine stops. -/
inductive Fault where
  | /-- Raised by HASH, HASHPAIR, INSERT and QUERY (`withItem`) when `ITEM[a]`, the first such cell of the item, has not been
    written since reset: the modelling fault of R41, R113 and R182 (I1). Safe: the hardware hashes whatever the cell holds. -/
    unwrittenItemCell (a : Nat)
  deriving DecidableEq, Repr

/-- Why an instruction is refused. -/
inductive Refusal where
  | /-- An arm of `exec` whose instruction has no meaning yet. No arm answers it now. Safe. -/ notModelled (mnemonic : String)
  deriving DecidableEq, Repr

/-- The item buffer's memory: written cells by index, rising; a cell that is not listed is unwritten (R41, log 10). -/
abbrev Memory := List Host.Cell

/-- The canonical form: addresses strictly rising. An unlisted cell reads as unwritten, which no entry equals. -/
abbrev Memory.wf (m : Memory) : Prop := m.Pairwise (fun x y => x.1 < y.1)

/-- The bit array: the cells that hold 1, by index, rising; a cell that is not listed holds 0 (R38, log 8, log 9). -/
abbrev BitArray := List Nat

/-- The canonical form: indices strictly rising. -/
abbrev BitArray.wf (b : BitArray) : Prop := b.Pairwise (· < ·)

/-- The machine: the block's state (R20), its parameters, the host, and the model's own schedule fields. ID and VERSION are
constants and CMD reads 0 (R22 to R24): they are in `readReg`, not here (log 18). -/
@[ext]
structure State where
  /-- The implementation parameters; configuration, changed by no step (R20, log 4). -/
  params : Params
  /-- STATUS.BUSY (R26). -/
  busy : Bool
  /-- STATUS.CONFIGURED (R27). -/
  configured : Bool
  /-- STATUS.RESULT (R28). -/
  result : Bool
  /-- STATUS.ERR (R29). -/
  err : ErrCode
  /-- BIT_COUNT (R30). -/
  bitCount : Word
  /-- HASH_COUNT[15:0] (R31); bits [31:16] read as zero. -/
  hashCount : BitVec 16
  /-- ITEM_LEN (R32). -/
  itemLen : Word
  /-- SEED (R33). -/
  seed : Word
  /-- HASH_OUT (R34). -/
  hashOut : Word
  /-- H1 (R35). -/
  h1 : Word
  /-- H2 (R36). -/
  h2 : Word
  /-- IDX_OUT (R37). -/
  idxOut : Word
  /-- `BITS` (R38). -/
  bits : BitArray
  /-- `ITEM` (R41). -/
  item : Memory
  /-- PENDING, the command in flight (R42). -/
  pending : Word
  /-- The host's program still to come (R17, R71, R90; log 2). -/
  host : List HostOp
  /-- The host's scratch variable, which a bus read writes (R90). -/
  v : Word
  /-- The model's own: host accesses that still fall before the engine's step, while BUSY (R70, R75, I11; log 1). -/
  engineDelay : Nat
  /-- The model's own: delays fixed beforehand for the commands to come; a free value where it is empty (log 1). -/
  schedule : List Nat
  /-- The model's own: the number of free values drawn so far (log 1, log 11). -/
  draws : Nat
  deriving DecidableEq, Repr

/-- Reset under parameters `p` (R44): every register 0, STATUS 0, every item cell unwritten. PENDING and the bit cells are
unspecified: DESIGN CHOICE 0 (log 7, log 8). The host and schedule fields start empty: DESIGN CHOICE (log 1, log 2). -/
def State.resetWith (p : Params) : State :=
  { params := p, busy := false, configured := false, result := false, err := .none, bitCount := 0, hashCount := 0,
    itemLen := 0, seed := 0, hashOut := 0, h1 := 0, h2 := 0, idxOut := 0, bits := [], item := [], pending := 0,
    host := [], v := 0, engineDelay := 0, schedule := [], draws := 0 }

/-- The machine right after reset (R44), under the reference parameters (DESIGN CHOICE, log 4). -/
def State.reset : State := State.resetWith Params.reference

end Sys2Proof.Machine
end

