-- ==== Sys2Proof/Machine/Ops.lean ====
section
/-! DEFINITION. The named operations over the item buffer, the bit array and the registers, and the ONE operation by which an
error is raised (spec/60_exceptions.md R171, R175, R176): the block has no trap entry and no return (R179). -/

namespace Sys2Proof.Machine

/-! ### The item buffer (spec/10_state.md R41) -/

/-- `ITEM[a]`; none where no bus write has written the cell since reset. -/
def Memory.read : Memory → Nat → Option Byte
  | [], _ => none
  | (k, b) :: m, a => if k = a then some b else Memory.read m a

/-- `ITEM[a] <- b`, keeping the addresses rising. -/
def Memory.write : Memory → Nat → Byte → Memory
  | [], a, b => [(a, b)]
  | (k, c) :: m, a, b =>
    if a < k then (a, b) :: (k, c) :: m else if a = k then (a, b) :: m else (k, c) :: Memory.write m a b

/-- A 32-bit item write: `ITEM[a + b] <- v[8b+7 : 8b]` for `b = 0 .. 3` (spec/20_memory.md R53, R56). -/
def Memory.writeWord (m : Memory) (a : Nat) (v : Word) : Memory :=
  (((m.write a (v.extractLsb' 0 8)).write (a + 1) (v.extractLsb' 8 8)).write (a + 2) (v.extractLsb' 16 8)).write
    (a + 3) (v.extractLsb' 24 8)

/-- `[ITEM[a], .., ITEM[a+n-1]]`, or the first of these cells that is unwritten. -/
def Memory.readRange (m : Memory) : (a n : Nat) → Except Nat (List Byte)
  | _, 0 => .ok []
  | a, n + 1 =>
    match m.read a with
    | none => .error a
    | some b =>
      match Memory.readRange m (a + 1) n with
      | .ok d => .ok (b :: d)
      | .error e => .error e

/-- What a bus read of `ITEM[a]` returns, and the free values drawn after it: the cell's byte, or for an unwritten cell a
fresh free byte (R53, I2). -/
def Memory.busRead (m : Memory) (a draws : Nat) : Byte × Nat :=
  match m.read a with
  | some b => (b, draws)
  | none => (Config.freeByte draws, draws + 1)

/-- What a 32-bit bus read of `ITEM[a .. a+3]` returns: `ITEM[a] | ITEM[a+1] << 8 | ITEM[a+2] << 16 | ITEM[a+3] << 24`
(R53), each unwritten cell a free byte of its own. -/
def Memory.busReadWord (m : Memory) (a draws : Nat) : Word × Nat :=
  let r0 := m.busRead a draws
  let r1 := m.busRead (a + 1) r0.2
  let r2 := m.busRead (a + 2) r1.2
  let r3 := m.busRead (a + 3) r2.2
  (r3.1 ++ r2.1 ++ r1.1 ++ r0.1, r3.2)

/-! ### The bit array (spec/10_state.md R38) -/

/-- `BITS[j]`, as a flag. -/
def BitArray.get (b : BitArray) (j : Nat) : Bool := decide (j ∈ b)

/-- `BITS[j] <- 1`, keeping the indices rising. -/
def BitArray.set : BitArray → Nat → BitArray
  | [], j => [j]
  | k :: b, j => if j < k then j :: k :: b else if j = k then k :: b else k :: BitArray.set b j

/-- `BITS[j] <- 1` for every `j` of a list, in its order. -/
def BitArray.setAll (b : BitArray) (l : List Nat) : BitArray := l.foldl BitArray.set b

/-- The conjunction of `BITS[j]` over a list; 1 for the empty list (spec/42_filter.md R147). -/
def BitArray.testAll (b : BitArray) (l : List Nat) : Bool := l.all b.get

/-- `for j in 0 .. m-1: BITS[j] <- 0` (R142). -/
def BitArray.clearBelow (b : BitArray) (m : Nat) : BitArray := b.filter (fun j => decide (m ≤ j))

/-- Window word `w` of a filter of `m` bits (spec/42_filter.md R160): `v[31-j]` is `BITS[32w + j]` below `m`, else 0. -/
def BitArray.word (b : BitArray) (m w : Nat) : Word :=
  BitVec.ofFnBE (fun j : Fin 32 => decide (32 * w + j.val < m) && b.get (32 * w + j.val))

/-- The cells a window write of `v` to word `w` sets (R161): `32w + j` below `m` with `v[31-j] = 1`. -/
def windowCells (m w : Nat) (v : Word) : List Nat :=
  ((List.range 32).filter (fun j => decide (32 * w + j < m) && v.getLsbD (31 - j))).map (32 * w + ·)

/-- `mask_w` (R162 (a)): bit `31-j` set exactly when `32w + j < m`. -/
def windowMask (m w : Nat) : Word := BitVec.ofFnBE (fun j : Fin 32 => decide (32 * w + j.val < m))

/-! ### Errors and the end of a command -/

/-- `raise Error(code)` (R175): the first error since the last clear is kept. -/
def State.raise (s : State) (code : ErrCode) : State :=
  { s with err := if s.err = .none then code else s.err }

/-- The engine step ends: BUSY returns to 0 (spec/20_memory.md R70). -/
def State.complete (s : State) : State := { s with busy := false }

/-- A command that raises an error (R171, R176): the error is recorded, BUSY returns to 0, nothing else is written. -/
def State.abandon (s : State) (code : ErrCode) : State := (s.raise code).complete

/-! ### Issuing a command, and reset -/

/-- The delay of the next command's engine step and the schedule and draw count after taking it: the next one fixed
beforehand, or a free value (log 1). -/
def State.nextDelay (s : State) : Nat × List Nat × Nat :=
  match s.schedule with
  | d :: rest => (d, rest, s.draws)
  | [] => (Config.engineDelay s.draws, [], s.draws + 1)

/-- An accepted CMD write of `c` (spec/10_state.md R24): `PENDING <- c`, BUSY <- 1. The model's own fields take the delay. -/
def State.issue (s : State) (c : Word) : State :=
  { s with
    pending := c, busy := true,
    engineDelay := s.nextDelay.1, schedule := s.nextDelay.2.1, draws := s.nextDelay.2.2 }

/-- The state in which command word `c` is in flight and the engine's step comes next: `withFetchWord`'s work (log 3). -/
def State.inFlight (s : State) (c : Word) : State := { s with pending := c, busy := true, engineDelay := 0 }

/-- A platform reset of the block (spec/70_reset_and_hazards.md R190): the block as R44 says, whatever it was, a command in
flight abandoned. The host, its schedule and the draw count are not the block's and stay (log 15). -/
def State.platformReset (s : State) : State :=
  { State.resetWith s.params with host := s.host, v := s.v, schedule := s.schedule, draws := s.draws }

end Sys2Proof.Machine
end

