-- ==== Sys2Proof/Machine/Flags.lean ====
section
/-! DEFINITION. The STATUS word and the registers as software reads and writes them (spec/10_state.md R21 to R37,
spec/60_exceptions.md R170). -/

namespace Sys2Proof.Machine

/-- The number of an error code (R170). -/
def ErrCode.code : ErrCode → BitVec 4
  | .none => 0
  | .illegalCmd => 1
  | .notConfigured => 2
  | .configLocked => 3
  | .badConfig => 4
  | .itemLen => 5
  | .busy => 6
  | .badAccess => 7
  | .zeroModulus => 8

/-- STATUS as a read returns it (R25): BUSY [0], CONFIGURED [1], RESULT [2], ERR [11:8], every other bit 0. -/
def State.statusWord (s : State) : Word :=
  (s.err.code.setWidth 32 <<< 8) ||| ((BitVec.ofBool s.result).setWidth 32 <<< 2) |||
    ((BitVec.ofBool s.configured).setWidth 32 <<< 1) ||| (BitVec.ofBool s.busy).setWidth 32

/-- What a read of a register returns (R22 to R37): ID and VERSION are constants, CMD is write-only and reads 0 (R21). -/
def readReg (r : Reg) (s : State) : Word :=
  match r with
  | .id => 0x43434246
  | .version => 0x00000001
  | .cmd => 0
  | .status => s.statusWord
  | .bitCount => s.bitCount
  | .hashCount => s.hashCount.setWidth 32
  | .itemLen => s.itemLen
  | .seed => s.seed
  | .hashOut => s.hashOut
  | .h1 => s.h1
  | .h2 => s.h2
  | .idxOut => s.idxOut

/-- The registers a bus write never changes: RO (register map, R21). -/
def Reg.readOnly : Reg → Bool
  | .id => true
  | .version => true
  | .cmd => false
  | .status => false
  | .bitCount => false
  | .hashCount => false
  | .itemLen => false
  | .seed => false
  | .hashOut => true
  | .h1 => true
  | .h2 => true
  | .idxOut => true

/-- The registers locked once the filter is configured (R30, R31). -/
def Reg.lockedByConfig (r : Reg) : Bool := r == .bitCount || r == .hashCount

/-- The registers that may be read while BUSY = 1 (spec/20_memory.md R58). -/
def Reg.readableWhileBusy (r : Reg) : Bool := r == .id || r == .version || r == .status

/-- What a bus write of `v` that passed every check does to a register (R24, R25, R30 to R33): CMD issues the command,
STATUS clears ERR and ignores its data, HASH_COUNT keeps 16 bits; the RO registers never get here (R21). -/
def writeReg (r : Reg) (v : Word) (s : State) : State :=
  match r with
  | .id => s
  | .version => s
  | .cmd => s.issue v
  | .status => { s with err := .none }
  | .bitCount => { s with bitCount := v }
  | .hashCount => { s with hashCount := v.extractLsb' 0 16 }
  | .itemLen => { s with itemLen := v }
  | .seed => { s with seed := v }
  | .hashOut => s
  | .h1 => s
  | .h2 => s
  | .idxOut => s

end Sys2Proof.Machine
end

