-- ==== Sys2Proof/Machine/HashCore.lean ====
section
/-! DEFINITION. The hash core: MurmurHash3 x86_32 (spec/40_hash_core.md R100 to R110) and the fixed seeds
(spec/00_scope.md R13). -/

namespace Sys2Proof.Machine

/-- The constants of the hash core, one named table (R109). -/
structure HashConstants where
  c1 : Word
  c2 : Word
  keyRotation : Nat
  stateRotation : Nat
  stateMultiplier : Word
  stateAddend : Word
  finalMultiplier1 : Word
  finalMultiplier2 : Word
  finalShift1 : Nat
  finalShift2 : Nat
  finalShift3 : Nat
  tailShift2 : Nat
  tailShift1 : Nat
  tailShift0 : Nat
  deriving DecidableEq, Repr

/-- UNVERIFIED (log 13): the rules' values, which the spec supplies from general knowledge (R109, K2 to K5). -/
def murmur3 : HashConstants :=
  { c1 := 0xcc9e2d51, c2 := 0x1b873593, keyRotation := 15, stateRotation := 13, stateMultiplier := 5,
    stateAddend := 0xe6546b64, finalMultiplier1 := 0x85ebca6b, finalMultiplier2 := 0xc2b2ae35,
    finalShift1 := 16, finalShift2 := 13, finalShift3 := 16, tailShift2 := 16, tailShift1 := 8,
    tailShift0 := 0 }

/-- `SEED1`, the seed of `h1` (R13, D13). -/
def seed1 : Word := 0x9747b28c

/-- `SEED2`, the seed of `h2` (R13, D13). -/
def seed2 : Word := 0x12345678

/-- `rotl32(x, r)` for `1 <= r <= 31` (R14). -/
def rotl32 (x : Word) (r : Nat) : Word := (x <<< r) ||| (x >>> (32 - r))

/-- `d[j]`; the hash never reads past the end of `d`. -/
def byteAt (d : List Byte) (j : Nat) : Byte := d.getD j 0

/-- `BLOCK(d, b)` (R101): the lowest-indexed byte is the least significant. -/
def block (d : List Byte) (b : Nat) : Word :=
  (byteAt d (4 * b)).setWidth 32 ||| ((byteAt d (4 * b + 1)).setWidth 32 <<< 8) |||
    ((byteAt d (4 * b + 2)).setWidth 32 <<< 16) ||| ((byteAt d (4 * b + 3)).setWidth 32 <<< 24)

/-- `MIXK(k)` (R102): multiply, rotate, multiply. -/
def mixK (k : Word) : Word := rotl32 (k * murmur3.c1) murmur3.keyRotation * murmur3.c2

/-- `MIXH(h, km)` (R103): xor, rotate, multiply, add. -/
def mixH (h km : Word) : Word :=
  rotl32 (h ^^^ km) murmur3.stateRotation * murmur3.stateMultiplier + murmur3.stateAddend

/-- The tail byte widening `E` (R106). -/
def widenTail (ext : TailExt) (x : Byte) : Word :=
  match ext with
  | .zero => x.setWidth 32
  | .sign => x.signExtend 32

/-- The tail word `k` of R105: the last `n mod 4` bytes, by byte-at-a-time shifts. -/
def tailWord (ext : TailExt) (d : List Byte) : Word :=
  let t := d.length % 4
  let o := 4 * (d.length / 4)
  let k2 : Word := if 3 ≤ t then widenTail ext (byteAt d (o + 2)) <<< murmur3.tailShift2 else 0
  let k1 : Word := if 2 ≤ t then k2 ^^^ (widenTail ext (byteAt d (o + 1)) <<< murmur3.tailShift1) else k2
  if 1 ≤ t then k1 ^^^ (widenTail ext (byteAt d o) <<< murmur3.tailShift0) else k1

/-- `TAIL(d, nb, h)` (R105): the mixed tail word is only xored into `h`; nothing changes when there is no tail. -/
def foldTail (ext : TailExt) (d : List Byte) (h : Word) : Word :=
  if 1 ≤ d.length % 4 then h ^^^ mixK (tailWord ext d) else h

/-- The loop over the whole blocks, in increasing order (R100, R104). -/
def mixBlocks (d : List Byte) (h : Word) : Word :=
  (List.range (d.length / 4)).foldl (fun h b => mixH h (mixK (block d b))) h

/-- `h ^ (h >> s)`. -/
def xorShift (h : Word) (s : Nat) : Word := h ^^^ (h >>> s)

/-- `FMIX(h)` (R108). -/
def fmix (h : Word) : Word :=
  let h := xorShift h murmur3.finalShift1
  let h := h * murmur3.finalMultiplier1
  let h := xorShift h murmur3.finalShift2
  let h := h * murmur3.finalMultiplier2
  xorShift h murmur3.finalShift3

/-- The steps after the blocks: the tail (R105), the length fold (R107), the finalizer (R108). -/
def finish (ext : TailExt) (d : List Byte) (h : Word) : Word := fmix (foldTail ext d h ^^^ BitVec.ofNat 32 d.length)

/-- `MH3(d, seed)` (R100, R107, R110), in each TAIL_EXT mode. -/
def mh3 (ext : TailExt) (d : List Byte) (seed : Word) : Word :=
  match ext with
  | .zero => finish .zero d (mixBlocks d seed)
  | .sign => finish .sign d (mixBlocks d seed)

/-! ### The pipeline reading (R112): the key mix of block `b+1` overlaps the state stage of block `b` -/

/-- The pipeline between two blocks: the mixed key of the block before, waiting for the state stage, and the state. -/
structure Pipeline where
  waiting : Option Word
  h : Word
  deriving DecidableEq, Repr

/-- Stage 5 of R112: the waiting key is taken into the state. -/
def Pipeline.drain (p : Pipeline) : Word :=
  match p.waiting with
  | none => p.h
  | some km => mixH p.h km

/-- One stage step of R112: stages 1 to 4 mix the key of the block that enters while stage 5 takes the waiting key. -/
def Pipeline.feed (p : Pipeline) (k : Word) : Pipeline := { waiting := some (mixK k), h := p.drain }

/-- MH3 computed as the pipeline of R112. -/
def mh3Pipelined (ext : TailExt) (d : List Byte) (seed : Word) : Word :=
  let start : Pipeline := { waiting := none, h := seed }
  finish ext d ((List.range (d.length / 4)).foldl (fun p b => Pipeline.feed p (block d b)) start).drain

end Sys2Proof.Machine
end

