-- ==== Sys2Proof/Machine/IndexGen.lean ====
section
/-! DEFINITION. The double-hash index generator (spec/41_index_generator.md R130 to R135). -/

namespace Sys2Proof.Machine

/-- The sum `s` of R130: `h1 + i*h2`, mod 2^32 under WRAP32, exact under EXACT. -/
def idxSum (mode : IdxMode) (h1 h2 : Word) (i : Nat) : Nat :=
  match mode with
  | .wrap32 => (h1.toNat + i * h2.toNat) % 2 ^ 32
  | .exactSum => h1.toNat + i * h2.toNat

/-- `IDX(h1, h2, i, m)` (R130). No rule calls it with `m = 0` (R131). -/
def idx (mode : IdxMode) (h1 h2 : Word) (i m : Nat) : Nat := idxSum mode h1 h2 i % m

/-- The index list `L` of a hash pair (R132): `k` entries, `i = 0 .. k-1`. -/
def indexList (mode : IdxMode) (h1 h2 : Word) (k m : Nat) : List Nat :=
  (List.range k).map (fun i => idx mode h1 h2 i m)

/-- The incremental form of R135 from the `i`-th entry on: `n` entries, each sum from the one before. Under WRAP32 the sum
is `s`, under EXACT the remainder is `s`. -/
def indexListFrom (mode : IdxMode) (h2 : Word) (m : Nat) : (n s : Nat) → List Nat
  | 0, _ => []
  | n + 1, s =>
    match mode with
    | .wrap32 => s % m :: indexListFrom mode h2 m n ((s + h2.toNat) % 2 ^ 32)
    | .exactSum => s :: indexListFrom mode h2 m n ((s + h2.toNat % m) % m)

/-- The incremental index list of R135: `s_0 = h1` under WRAP32, `r_0 = h1 mod m` under EXACT. -/
def indexListStepwise (mode : IdxMode) (h1 h2 : Word) (k m : Nat) : List Nat :=
  match mode with
  | .wrap32 => indexListFrom .wrap32 h2 m k h1.toNat
  | .exactSum => indexListFrom .exactSum h2 m k (h1.toNat % m)

end Sys2Proof.Machine
end

