-- ==== Sys2Proof/Machine/Operands.lean ====
section
/-! DEFINITION. The operands of the commands (spec/30_encoding.md R83): the item (spec/40_hash_core.md R113), the hash pair
(R115), the configured parameters `m` and `k` (spec/42_filter.md), and the checks commands share, in R174's order. -/

namespace Sys2Proof.Machine

/-- What a command is answered: the engine's step. -/
abbrev StepResult := Host.Outcome State Fault Refusal

/-- What fetching the item gives (R113). -/
inductive ItemOperand where
  | /-- The item `[ITEM[0], .., ITEM[len-1]]`. -/ item (d : List Byte)
  | /-- `ITEM_LEN > ITEM_MAX`. -/ tooLong
  | /-- `ITEM[a]`, with `a < len`, has not been written since reset. -/ unwritten (a : Nat)
  deriving DecidableEq, Repr

/-- ITEM_OPERAND (R113): the length check first, then the cells in index order. -/
def itemOperand (s : State) : ItemOperand :=
  if s.itemLen.toNat ≤ s.params.itemMax then
    match s.item.readRange 0 s.itemLen.toNat with
    | .ok d => .item d
    | .error a => .unwritten a
  else .tooLong

/-- A command that reads the item: ITEM_LEN is raised (R113), an unwritten cell is the modelling fault of R182, and
otherwise the engine's step writes what `effect` says and ends. -/
def withItem (s : State) (effect : List Byte → State) : StepResult :=
  match itemOperand s with
  | .item d => .next (effect d).complete
  | .tooLong => .next (s.abandon .itemLen)
  | .unwritten a => .fault (.unwrittenItemCell a)

/-- The configured precondition (spec/42_filter.md R141). -/
def whenConfigured (s : State) (command : StepResult) : StepResult :=
  if s.configured then command else .next (s.abandon .notConfigured)

/-- `m`, the configured `bit_count`. -/
def State.m (s : State) : Nat := s.bitCount.toNat

/-- `k`, the configured `hash_count`. -/
def State.k (s : State) : Nat := s.hashCount.toNat

/-- `MH3(d, seed)` under the machine's TAIL_EXT. -/
def State.mh3 (s : State) (d : List Byte) (seed : Word) : Word := Sys2Proof.Machine.mh3 s.params.tailExt d seed

/-- `REG.H1 <- MH3(d, SEED1); REG.H2 <- MH3(d, SEED2)` (R115). -/
def State.writePair (s : State) (d : List Byte) : State := { s with h1 := s.mh3 d seed1, h2 := s.mh3 d seed2 }

/-- The index list of an item (R132) for the configured filter, with `m >= 1`. -/
def State.itemIndices (s : State) (d : List Byte) : List Nat :=
  indexList s.params.idxMode (s.mh3 d seed1) (s.mh3 d seed2) s.k s.m

end Sys2Proof.Machine
end

