-- ==== Sys2Proof/Machine/Bus.lean ====
section
/-! DEFINITION. Host bus accesses (spec/20_memory.md R50 to R62): the address map, the three checks in their order, what an
access that passes them does, and the host's program (spec/30_encoding.md R90, R91; spec/70_reset_and_hazards.md R190). -/

namespace Sys2Proof.Machine

/-- The register at word `n` of the register region (register map of 10_state.md). -/
def Reg.ofIndex : Nat → Option Reg
  | 0 => some .id
  | 1 => some .version
  | 2 => some .cmd
  | 3 => some .status
  | 4 => some .bitCount
  | 5 => some .hashCount
  | 6 => some .itemLen
  | 7 => some .seed
  | 8 => some .hashOut
  | 9 => some .h1
  | 10 => some .h2
  | 11 => some .idxOut
  | _ => none

/-- A register's offset (register map of 10_state.md). -/
def Reg.offset : Reg → Word
  | .id => 0x00
  | .version => 0x04
  | .cmd => 0x08
  | .status => 0x0C
  | .bitCount => 0x10
  | .hashCount => 0x14
  | .itemLen => 0x18
  | .seed => 0x1C
  | .hashOut => 0x20
  | .h1 => 0x24
  | .h2 => 0x28
  | .idxOut => 0x2C

/-- An access of `n` bytes to the register region: 32-bit and aligned only (R55), a mapped register (R52). -/
def mapRegister (off n : Nat) : Option Target :=
  if n = 4 ∧ off % 4 = 0 then (Reg.ofIndex (off / 4)).map .reg else none

/-- An access of `n` bytes at item index `a`: a byte at any index, or an aligned word, below ITEM_MAX (R52, R53, R55; log 21). -/
def mapItem (itemMax a n : Nat) : Option Target :=
  if n = 1 ∧ a < itemMax then some (.itemByte a)
  else if n = 4 ∧ a % 4 = 0 ∧ a + 3 < itemMax then some (.itemWord a)
  else none

/-- An access of `n` bytes at byte `b` of the bit-array window: 32-bit and aligned only (R54, R55). -/
def mapWindow (b n : Nat) : Option Target :=
  if n = 4 ∧ b % 4 = 0 then some (.windowWord (b / 4)) else none

/-- What an access of `n` bytes at offset `off` names; none where mapping, width or alignment fails (R51, R52, R55). -/
def mapAccess (p : Params) (off : Word) (n : Nat) : Option Target :=
  let o := off.toNat
  if o < 0x100 then mapRegister o n
  else if 0x800 ≤ o ∧ o < 0x1000 then mapItem p.itemMax (o - 0x800) n
  else if 0x20000000 ≤ o ∧ o < 0x40000000 then mapWindow (o - 0x20000000) n
  else none

/-- The busy rule for reads (R58): only ID, VERSION and STATUS pass while BUSY = 1. -/
def Target.readableWhileBusy : Target → Bool
  | .reg r => r.readableWhileBusy
  | .itemByte _ => false
  | .itemWord _ => false
  | .windowWord _ => false

/-- The target's own rule for reads (R57 check 3): the bit-array window needs a configured filter (R160). -/
def readRule (t : Target) (s : State) : Except ErrCode Unit :=
  match t with
  | .windowWord _ => if s.configured then .ok () else .error .notConfigured
  | .reg _ => .ok ()
  | .itemByte _ => .ok ()
  | .itemWord _ => .ok ()

/-- The target's own rule for writes (R57 check 3): RO registers (R21), BIT_COUNT and HASH_COUNT once configured (R30, R31),
the bit-array window before CONFIG (R161). -/
def writeRule (t : Target) (s : State) : Except ErrCode Unit :=
  match t with
  | .reg r =>
    if r.readOnly then .error .badAccess
    else if r.lockedByConfig && s.configured then .error .configLocked
    else .ok ()
  | .windowWord _ => if s.configured then .ok () else .error .notConfigured
  | .itemByte _ => .ok ()
  | .itemWord _ => .ok ()

/-- The checks of a bus read, in R57's order: the target, or the first error. -/
def checkRead (off : Word) (n : Nat) (s : State) : Except ErrCode Target :=
  match mapAccess s.params off n with
  | none => .error .badAccess
  | some t =>
    if s.busy && !t.readableWhileBusy then .error .busy
    else match readRule t s with
      | .error c => .error c
      | .ok _ => .ok t

/-- The checks of a bus write, in R57's order: every write is refused while BUSY = 1 (R58). -/
def checkWrite (off : Word) (n : Nat) (s : State) : Except ErrCode Target :=
  match mapAccess s.params off n with
  | none => .error .badAccess
  | some t =>
    if s.busy then .error .busy
    else match writeRule t s with
      | .error c => .error c
      | .ok _ => .ok t

/-- The value a read of a target returns, and the draw count after it (R53, R160, the register map). -/
def readTarget (t : Target) (s : State) : Word × Nat :=
  match t with
  | .reg r => (readReg r s, s.draws)
  | .itemByte a => ((s.item.busRead a s.draws).1.setWidth 32, (s.item.busRead a s.draws).2)
  | .itemWord a => s.item.busReadWord a s.draws
  | .windowWord w => (s.bits.word s.m w, s.draws)

/-- What a write of `v` that passed every check does (R53, R59, R161). -/
def writeTarget (t : Target) (v : Word) (s : State) : State :=
  match t with
  | .reg r => writeReg r v s
  | .itemByte a => { s with item := s.item.write a (v.extractLsb' 0 8) }
  | .itemWord a => { s with item := s.item.writeWord a v }
  | .windowWord w => { s with bits := s.bits.setAll (windowCells s.m w v) }

/-- A bus read of `n` bytes at `off` (R57): its value goes to the host's `v` (R90); a failed read returns 0 and records its
error. -/
def hostRead (off : Word) (n : Nat) (s : State) : State :=
  match checkRead off n s with
  | .error c => { s.raise c with v := 0 }
  | .ok t => { s with v := (readTarget t s).1, draws := (readTarget t s).2 }

/-- A bus write of `v`, `n` bytes, at `off` (R57): a failed write only records its error. -/
def hostWrite (off : Word) (n : Nat) (v : Word) (s : State) : State :=
  match checkWrite off n s with
  | .error c => s.raise c
  | .ok t => writeTarget t v s

/-- One event from outside: a bus access, one STATUS read of a `poll` (R91), or a platform reset (R190). -/
def perform (op : HostOp) (s : State) : State :=
  match op with
  | .read off n => hostRead off n s
  | .write off n v => hostWrite off n v s
  | .poll => hostRead Reg.status.offset 4 s
  | .platformReset => s.platformReset

/-- The host's program after `op`, given what it read: `poll` starts over while `v[0] = 1` (R91). -/
def hostAfter (op : HostOp) (rest : List HostOp) (v : Word) : List HostOp :=
  match op with
  | .poll => if v.getLsbD 0 then .poll :: rest else rest
  | .read _ _ => rest
  | .write _ _ _ => rest
  | .platformReset => rest

/-- While a command is in flight, one host access fewer falls before the engine's step (log 1). -/
def State.countdown (s : State) : State :=
  { s with engineDelay := if s.busy then s.engineDelay - 1 else s.engineDelay }

/-- The host's move: its next event `op` is performed whole (R60, R71), and `rest` follows. -/
def hostMove (op : HostOp) (rest : List HostOp) (s : State) : State :=
  let t := perform op s.countdown
  { t with host := hostAfter op rest t.v }

end Sys2Proof.Machine
end

