-- ==== Sys2Proof/Machine/Control.lean ====
section
/-! DEFINITION. The control commands NOP and CONFIG (spec/42_filter.md R140, R142). -/

namespace Sys2Proof.Machine

/-- NOP (R140): the engine step only returns BUSY to 0. -/
def execNop (s : State) : StepResult := .next s.complete

/-- CONFIG (R142): refused once configured and when `m > BIT_COUNT_MAX`; otherwise cells `0 .. m-1` are cleared and the filter
is configured. -/
def execConfig (s : State) : StepResult :=
  if s.configured then .next (s.abandon .configLocked)
  else if s.m ≤ s.params.bitCountMax then
    .next ({ s with bits := s.bits.clearBelow s.m, configured := true } : State).complete
  else .next (s.abandon .badConfig)

end Sys2Proof.Machine
end

