-- ==== Sys2Proof/Machine/Filter.lean ====
section
/-! DEFINITION. The filter commands INSERT and QUERY (spec/42_filter.md R145, R147, R149). -/

namespace Sys2Proof.Machine

/-- The effect of INSERT on an item (R145): the hash pair is written; unless `m = 0`, every indexed cell is set. -/
def State.insertItem (s : State) (d : List Byte) : State :=
  { s.writePair d with bits := if s.m = 0 then s.bits else s.bits.setAll (s.itemIndices d) }

/-- The answer of QUERY on an item (R147): 1 when `m = 0` (R149), else the conjunction of the indexed cells. -/
def State.contains (s : State) (d : List Byte) : Bool :=
  if s.m = 0 then true else s.bits.testAll (s.itemIndices d)

/-- The effect of QUERY on an item (R147): the hash pair and STATUS.RESULT are written. -/
def State.queryItem (s : State) (d : List Byte) : State := { s.writePair d with result := s.contains d }

/-- INSERT (R145): NOT_CONFIGURED, then ITEM_LEN, then its effect. -/
def execInsert (s : State) : StepResult := whenConfigured s (withItem s s.insertItem)

/-- QUERY (R147): NOT_CONFIGURED, then ITEM_LEN, then its effect. -/
def execQuery (s : State) : StepResult := whenConfigured s (withItem s s.queryItem)

end Sys2Proof.Machine
end

