-- ==== Sys2Proof/Machine/Hash.lean ====
section
/-! DEFINITION. The hash commands HASH and HASHPAIR (spec/40_hash_core.md R114, R115). -/

namespace Sys2Proof.Machine

/-- HASH (R114): `HASH_OUT <- MH3(item, SEED)`. -/
def execHash (s : State) : StepResult := withItem s (fun d => { s with hashOut := s.mh3 d s.seed })

/-- HASHPAIR (R115): `H1, H2 <- MH3(item, SEED1), MH3(item, SEED2)`; SEED is ignored. -/
def execHashPair (s : State) : StepResult := withItem s s.writePair

end Sys2Proof.Machine
end

