-- ==== Sys2Proof/Machine/Index.lean ====
section
/-! DEFINITION. The INDEX command (spec/41_index_generator.md R133). -/

namespace Sys2Proof.Machine

/-- INDEX `i` (R133): `IDX_OUT <- IDX(H1, H2, i, m)`, or ZERO_MODULUS when `m = 0`. -/
def execIndex (i : Nat) (s : State) : StepResult :=
  whenConfigured s
    (if s.m = 0 then .next (s.abandon .zeroModulus)
     else .next ({ s with idxOut := BitVec.ofNat 32 (idx s.params.idxMode s.h1 s.h2 i s.m) } : State).complete)

end Sys2Proof.Machine
end

