-- ==== Sys2Proof/Machine/Dispatch.lean ====
section
/-! DEFINITION. The dispatch of a decoded command to its meaning (spec/30_encoding.md R80 step 4, R86): one arm per command. -/

namespace Sys2Proof.Machine

def exec (i : Instr) (s : State) : Host.Outcome State Fault Refusal :=
  match i with
  | .nop => Sys2Proof.Machine.execNop s
  | .config => Sys2Proof.Machine.execConfig s
  | .hash => Sys2Proof.Machine.execHash s
  | .hashPair => Sys2Proof.Machine.execHashPair s
  | .insert => Sys2Proof.Machine.execInsert s
  | .query => Sys2Proof.Machine.execQuery s
  | .index n => Sys2Proof.Machine.execIndex n s

end Sys2Proof.Machine
end

