-- ==== Sys2Proof/Machine/Engine.lean ====
section
/-! DEFINITION. The engine (spec/20_memory.md R70, spec/30_encoding.md R80) and whose move it is (spec/00_scope.md R17). -/

namespace Sys2Proof.Machine

/-- The engine performs the command in PENDING (R80): an illegal word raises ILLEGAL_CMD and changes nothing else. -/
def engineStep (s : State) : StepResult :=
  match decode s.pending with
  | .ok i => exec i s
  | .error _ => .next (s.abandon .illegalCmd)

/-- It is the engine's turn (R70, R75; log 1): a command is in flight and the host accesses that fall before it have been made,
or the host makes none. -/
def engineTurn (s : State) : Bool := s.busy && (s.engineDelay == 0 || s.host.isEmpty)

/-- One move of the machine (R17, R70, R71): the engine's step, or the host's next access; with neither, the block idles
(spec/70_reset_and_hazards.md R191, log 14). -/
def nextMove (s : State) : StepResult :=
  if engineTurn s then engineStep s
  else match s.host with
    | [] => .next s
    | op :: rest => .next (hostMove op rest s)

end Sys2Proof.Machine
end

