-- ==== Sys2Proof/Machine/Step.lean ====
section
/-! DEFINITION. One step of the machine, and the state in which a given command word is the one performed next. -/

namespace Sys2Proof.Machine

/-- One step: one move of the engine or of the host (R17, R70, R71). -/
def step (s : State) : Host.Outcome State Fault Refusal := nextMove s

/-- `s` with the command word of `w`'s low `nbits` bits in flight and the engine's step next: what an accepted CMD write of that
word leaves (R24, R81). Nothing is fetched (R43, R50), so PENDING is where a step takes its instruction from (log 3). -/
def State.withFetchWord (s : State) (nbits w : Nat) : State := s.inFlight (BitVec.ofNat 32 (w % 2 ^ nbits))

end Sys2Proof.Machine
end

