-- ==== Sys2Proof/Machine/HostProgram.lean ====
section
/-! DEFINITION. Host programs: the accesses of spec/30_encoding.md R90 and the pseudo-instructions of R91, as the list of events
they expand to. The block sees only the accesses. -/

namespace Sys2Proof.Machine

/-- `w32 OFF, VAL` (R90). -/
def w32 (off v : Word) : HostOp := .write off 4 v

/-- `r32 OFF` (R90). -/
def r32 (off : Word) : HostOp := .read off 4

/-- `w8 OFF, VAL` (R90). -/
def w8 (off : Word) (v : Byte) : HostOp := .write off 1 (v.setWidth 32)

/-- `r8 OFF` (R90). -/
def r8 (off : Word) : HostOp := .read off 1

/-- `cmd OP` and `cmd INDEX, i`: the command word written to CMD (R90). -/
def cmd (i : Instr) : HostOp := w32 Reg.cmd.offset (encode i)

/-- `do OP` and `do INDEX, i` (R91): `cmd`, then `poll`. -/
def doCmd (i : Instr) : List HostOp := [cmd i, .poll]

/-- The offset of `ITEM[a]` (spec/20_memory.md R53). -/
def itemOffset (a : Nat) : Word := BitVec.ofNat 32 (0x800 + a)

/-- `item "s"` for `n <= ITEM_MAX` bytes (R91): whole words, then the tail bytes, then ITEM_LEN. A whole word is the same
number as the hash core's block (R56). -/
def item (d : List Byte) : List HostOp :=
  (List.range (d.length / 4)).map (fun m => w32 (itemOffset (4 * m)) (block d m)) ++
  (List.range (d.length % 4)).map
    (fun t => w8 (itemOffset (4 * (d.length / 4) + t)) (byteAt d (4 * (d.length / 4) + t))) ++
  [w32 Reg.itemLen.offset (BitVec.ofNat 32 d.length)]

/-- `insert "s"` (R91). -/
def insertItem (d : List Byte) : List HostOp := item d ++ doCmd .insert

/-- `query "s"` (R91): the answer is bit 2 of the last value read. -/
def queryItem (d : List Byte) : List HostOp := item d ++ doCmd .query ++ [r32 Reg.status.offset]

/-- `clrerr` (R91). -/
def clrerr : HostOp := w32 Reg.status.offset 0

/-- The boot steps 3 and 4 of spec/70_reset_and_hazards.md R192. -/
def boot (bitCount : Word) (hashCount : BitVec 16) : List HostOp :=
  [w32 Reg.bitCount.offset bitCount, w32 Reg.hashCount.offset (hashCount.setWidth 32)] ++ doCmd .config ++
  [r32 Reg.status.offset]

/-- A list of events performed one after the other, with no engine step between them. -/
def performAll (ops : List HostOp) (s : State) : State := ops.foldl (fun t op => perform op t) s

end Sys2Proof.Machine
end

