-- ==== Sys2Proof/Machine/HostCodec.lean ====
section
/-! DEFINITION. The host's artifact codec over the bit-array window (spec/70_reset_and_hazards.md R207 to R209): surrounding
software, not the block (spec/00_scope.md R6 (c)), given so that a whole system can be modelled. -/

namespace Sys2Proof.Machine

/-- Why the reader rejects a byte stream (R209; the source's FormatError). -/
inductive FormatError where
  | /-- Bytes 0 to 3 are not "CCBF". -/ magicMismatch
  | /-- Shorter than 12 bytes, or than `12 + ceil(bit_count/8)`. -/ truncated
  deriving DecidableEq, Repr

/-- Why construction from raw state is refused on the host (93_implementation_defined.md I19; log 28). -/
inductive RawError where
  | /-- The list of cells does not have `bit_count` entries. -/ lengthMismatch
  deriving DecidableEq, Repr

/-- What an artifact holds (R209): exactly `bit_count` cells, in index order. -/
structure Artifact where
  bitCount : Word
  hashCount : BitVec 16
  cells : List Bool
  deriving DecidableEq, Repr

/-- The magic, ASCII "CCBF" (R207). -/
def magic : List Byte := [0x43, 0x43, 0x42, 0x46]

/-- A 16-bit number, most significant byte first (R207). -/
def be16 (x : BitVec 16) : List Byte := [x.extractLsb' 8 8, x.extractLsb' 0 8]

/-- A 32-bit number, most significant byte first (R207). -/
def be32 (x : Word) : List Byte := [x.extractLsb' 24 8, x.extractLsb' 16 8, x.extractLsb' 8 8, x.extractLsb' 0 8]

/-- The bit region (R207, R208): the window words, most significant byte first, cut after `ceil(m/8)` bytes. -/
def bitRegion (b : BitArray) (m : Nat) : List Byte :=
  ((List.range ((m + 31) / 32)).flatMap (fun w => be32 (b.word m w))).take ((m + 7) / 8)

/-- The artifact of a configured filter (R207): the writer emits version 1. -/
def writeArtifact (s : State) : List Byte :=
  magic ++ be16 1 ++ be16 s.hashCount ++ be32 s.bitCount ++ bitRegion s.bits s.m

/-- Cell `j` of a bit region: cell `8q` is the most significant bit of byte `q` (R208). -/
def regionCell (region : List Byte) (j : Nat) : Bool := (byteAt region (j / 8)).getLsbD (7 - j % 8)

/-- The reader (R209): it checks the magic and the length, ignores the version and trailing bytes, and drops the padding. -/
def readArtifact (a : List Byte) : Except FormatError Artifact :=
  if a.take 4 ≠ magic then .error .magicMismatch
  else if a.length < 12 then .error .truncated
  else
    let k : BitVec 16 := byteAt a 6 ++ byteAt a 7
    let m : Word := byteAt a 8 ++ byteAt a 9 ++ byteAt a 10 ++ byteAt a 11
    if a.length < 12 + (m.toNat + 7) / 8 then .error .truncated
    else .ok { bitCount := m, hashCount := k, cells := (List.range m.toNat).map (regionCell (a.drop 12)) }

/-- Word `w` of a list of cells, in the window's packing, a short last word padded with zeros (R208). -/
def cellsWord (cells : List Bool) (w : Nat) : Word := BitVec.ofFnBE (fun j : Fin 32 => cells.getD (32 * w + j.val) false)

/-- The packed words of `bit_count` cells, written through the window (spec/42_filter.md R144, its third step); `restore` checks that
there are so many (log 28). -/
def restoreWords (a : Artifact) : List HostOp :=
  (List.range ((a.bitCount.toNat + 31) / 32)).map
    (fun w => w32 (BitVec.ofNat 32 (0x20000000 + 4 * w)) (cellsWord a.cells w))

/-- Construction from raw state (spec/42_filter.md R144, R192 step 5): boot with the parameters, then the words. A list of cells
of another length than `bit_count` is the host's fault (93_implementation_defined.md I19); that it is an error of this function,
before any access is made, is the model's choice (DESIGN CHOICE, log 28). -/
def restore (a : Artifact) : Except RawError (List HostOp) :=
  if a.cells.length = a.bitCount.toNat then .ok (boot a.bitCount a.hashCount ++ restoreWords a)
  else .error .lengthMismatch

end Sys2Proof.Machine
end

