-- ==== Sys2Proof/Safety.lean ====
section
/-! DEFINITION. The terms the statements use: the invariant of the machine, the readiness of a command's operands, legal
accesses, and the parts of a state a comparison leaves out. -/

namespace Sys2Proof.Machine

/-- The invariant: parameters in their ranges, item buffer and bit array in canonical form and within their sizes, a configured
`bit_count` within BIT_COUNT_MAX (R142), RESULT and IDX_OUT untouched before CONFIG (R141), IDX_OUT below `bit_count` or still
its reset value (R37). -/
abbrev State.Inv (s : State) : Prop :=
  s.params.Valid ∧
  s.item.wf ∧ (∀ c ∈ s.item, c.1 < s.params.itemMax) ∧
  s.bits.wf ∧ (∀ j ∈ s.bits, j < s.params.bitCountMax) ∧
  (s.configured = true → s.m ≤ s.params.bitCountMax) ∧
  (s.configured = false → s.result = false ∧ s.idxOut = 0) ∧
  (s.idxOut = 0 ∨ s.idxOut.toNat < s.m)

/-- `ITEM_LEN <= ITEM_MAX`, and every byte of the item has been written since reset (R113, R193): the item can be read. -/
abbrev State.ItemReady (s : State) : Prop :=
  s.itemLen.toNat ≤ s.params.itemMax ∧ ∀ a < s.itemLen.toNat, (s.item.read a).isSome = true

/-- `[ITEM[0], .., ITEM[ITEM_LEN-1]]`, where the item can be read (R19, R113). -/
def State.theItem (s : State) : List Byte := (List.range s.itemLen.toNat).map (fun a => (s.item.read a).getD 0)

/-- A bus access the map, the widths and the alignment allow (R51, R52, R55), spelt out from the offsets. -/
abbrev LegalAccess (p : Params) (off : Word) (n : Nat) : Prop :=
  (off.toNat < 0x30 ∧ n = 4 ∧ off.toNat % 4 = 0) ∨
  ((0x800 ≤ off.toNat ∧ off.toNat < 0x800 + p.itemMax) ∧ (n = 1 ∨ (n = 4 ∧ off.toNat % 4 = 0))) ∨
  ((0x20000000 ≤ off.toNat ∧ off.toNat < 0x40000000) ∧ n = 4 ∧ off.toNat % 4 = 0)

/-- No platform reset is among the events to come. -/
abbrev State.NoReset (s : State) : Prop := HostOp.platformReset ∉ s.host

/-- The next event from outside is a platform reset, and it is not the engine's turn. -/
abbrev State.ResetNext (s : State) : Prop := engineTurn s = false ∧ s.host.head? = some .platformReset

/-- Items inserted one after the other, each loaded into the item buffer by R91's `item` and then performed by INSERT. -/
def insertSequence : List (List Byte) → State → StepResult
  | [], s => .next s
  | d :: ds, s =>
    match exec .insert (performAll (item d) s) with
    | .next t => insertSequence ds t
    | .fault r => .fault r
    | .refused r => .refused r

/-- PENDING left out of a comparison. -/
def State.dropPending (s : State) : State := { s with pending := 0 }

/-- The bit array left out of a comparison. -/
def State.dropBits (s : State) : State := { s with bits := [] }

/-- The error record left out of a comparison. -/
def State.dropErr (s : State) : State := { s with err := .none }

/-- The error record, the host's scratch variable and program, and the countdown left out: the rest of the block, with its
configuration and the model's draws. -/
def State.dropHostView (s : State) : State := { s with err := .none, v := 0, host := [], engineDelay := 0 }

/-- A function of the next state, faults and refusals kept. -/
def mapNext (f : State → State) : StepResult → StepResult
  | .next s => .next (f s)
  | .fault r => .fault r
  | .refused r => .refused r

/-- The state after a command that raises `code`, written out (R171, R175, R176). -/
def State.failed (s : State) (code : ErrCode) : State :=
  { s with err := if s.err = .none then code else s.err, busy := false }

/-- A word whose opcode is that of the well-formed command `i` but which does not decode to a command of `i`'s opcode is
malformed; performing it raises ILLEGAL_CMD and changes nothing else (R80). -/
abbrev MalformedRaises (op : BitVec 4) : Prop :=
  ∀ s : State, s.pending.extractLsb' 0 4 = op →
    (s.pending.extractLsb' 4 12 ≠ 0 ∨ (op ≠ 6 ∧ s.pending.extractLsb' 16 16 ≠ 0)) →
    engineStep s = .next (s.failed .illegalCmd)

end Sys2Proof.Machine
end

