-- ==== Sys2Proof/Certificates/Slice0/Obligations.lean ====
section
/-! DEFINITION. The statements about the machine, each from the rules of spec/ its docstring names. Every statement holds for
every value of the parameters, of the host's program and of the schedule; none rests on a free value or on a reset value the
model chose. -/

open Sys2Proof Sys2Proof.Machine

/-! ### The command word (spec/30_encoding.md) -/

/-- Every well-formed command decodes from its own word, with INDEX's operand at every 16-bit value (R82, R83, R86). -/
def Obligations.DecodeUndoesEncode : Prop := ∀ i : Instr, i.wellFormed = true → decode (encode i) = .ok i

/-- Every word that decodes is the word of the command it decodes to, and that command is well-formed (R82, R86). -/
def Obligations.EncodeUndoesDecode : Prop :=
  ∀ (c : Word) (i : Instr), decode c = .ok i → i.wellFormed = true ∧ encode i = c

/-- R86: the opcode map: a word selects a row when `c & mask = match`, at most one row matches, a matching word decodes to the
row's command, and a word that matches none raises ILLEGAL_CMD. -/
def Obligations.OpcodeMapSelectsOneRow : Prop :=
  (∀ c : Word, ∀ r ∈ opcodeRows, ∀ q ∈ opcodeRows, r.selects c = true → q.selects c = true → r = q) ∧
  (∀ c : Word,
    (c &&& 0xFFFFFFFF = 0x00000000 → decode c = .ok .nop) ∧
    (c &&& 0xFFFFFFFF = 0x00000001 → decode c = .ok .config) ∧
    (c &&& 0xFFFFFFFF = 0x00000002 → decode c = .ok .hash) ∧
    (c &&& 0xFFFFFFFF = 0x00000003 → decode c = .ok .hashPair) ∧
    (c &&& 0xFFFFFFFF = 0x00000004 → decode c = .ok .insert) ∧
    (c &&& 0xFFFFFFFF = 0x00000005 → decode c = .ok .query) ∧
    (c &&& 0x0000FFFF = 0x00000006 → decode c = .ok (.index (c >>> 16).toNat))) ∧
  (∀ s : State, (∀ r ∈ opcodeRows, r.selects s.pending = false) → engineStep s = .next (s.failed .illegalCmd))

/-- R80: the engine's dispatch, step by step, on the bits of PENDING. -/
def Obligations.EngineDispatchFollowsSteps : Prop :=
  ∀ s : State,
    let c := s.pending.toNat
    (c / 2 ^ 4 % 2 ^ 12 ≠ 0 → engineStep s = .next (s.failed .illegalCmd)) ∧
    (c / 2 ^ 4 % 2 ^ 12 = 0 → 7 ≤ c % 16 → engineStep s = .next (s.failed .illegalCmd)) ∧
    (c / 2 ^ 4 % 2 ^ 12 = 0 → c % 16 < 6 → c / 2 ^ 16 ≠ 0 → engineStep s = .next (s.failed .illegalCmd)) ∧
    (c / 2 ^ 4 % 2 ^ 12 = 0 → c % 16 = 6 → engineStep s = exec (.index (c / 2 ^ 16)) s) ∧
    (c / 2 ^ 4 % 2 ^ 12 = 0 → c / 2 ^ 16 = 0 →
      (c % 16 = 0 → engineStep s = exec .nop s) ∧ (c % 16 = 1 → engineStep s = exec .config s) ∧
      (c % 16 = 2 → engineStep s = exec .hash s) ∧ (c % 16 = 3 → engineStep s = exec .hashPair s) ∧
      (c % 16 = 4 → engineStep s = exec .insert s) ∧ (c % 16 = 5 → engineStep s = exec .query s))

/-- R92: the encoding examples, and the three illegal words with the step of R80 that rejects each. -/
def Obligations.EncodingExamples : Prop :=
  decode 0x00000000 = .ok .nop ∧ decode 0x00000001 = .ok .config ∧ decode 0x00000002 = .ok .hash ∧
  decode 0x00000003 = .ok .hashPair ∧ decode 0x00000004 = .ok .insert ∧ decode 0x00000005 = .ok .query ∧
  decode 0x00000006 = .ok (.index 0) ∧ decode 0x00030006 = .ok (.index 3) ∧ decode 0xFFFF0006 = .ok (.index 65535) ∧
  encode (.index 3) = 0x00030006 ∧ encode (.index 65535) = 0xFFFF0006 ∧
  decode 0x00010004 = .error .strayImmediate ∧ decode 0x00000017 = .error .reservedBits ∧
  decode 0x00000007 = .error .reservedOpcode

/-! ### Whose move it is -/

/-- When a command is in flight and the host accesses before it are made, or the host makes none, the step is the decoded
command's meaning, or for a word that does not decode ILLEGAL_CMD and the end of the command, with nothing else changed (R70, R80,
R176). The countdown is the model's form of the open schedule (DESIGN CHOICE, log 1), and that the engine moves at once when the
host makes no further access is the model's reading of R75 (DEDUCED, log 23). -/
def Obligations.StepPerformsDecodedCommand : Prop :=
  ∀ s : State, s.busy = true → (s.engineDelay = 0 ∨ s.host = []) →
    (∀ i, decode s.pending = .ok i → step s = exec i s) ∧
    (∀ e, decode s.pending = .error e → step s = .next (s.failed .illegalCmd))

/-- A word placed in flight is the one the next step performs, from any state; nothing else of the state changes (log 3). -/
def Obligations.PlacedWordIsPerformedNext : Prop :=
  ∀ (s : State) (w : Nat) (i : Instr), decodeTableWord 32 w = some i →
    s.withFetchWord 32 w = { s with pending := BitVec.ofNat 32 w, busy := true, engineDelay := 0 } ∧
    step (s.withFetchWord 32 w) = exec i (s.withFetchWord 32 w)

/-- With no command in flight, or one whose turn has not come, the host's next event is performed whole and the rest of its
program follows (R71); a `poll` starts over while `v[0] = 1` (R91); with no event left the block idles (R191). The countdown and
the idle step are the model's (log 1, log 14). -/
def Obligations.StepTakesTheHostsMove : Prop :=
  (∀ s : State, s.busy = false → s.host = [] → step s = .next s) ∧
  (∀ (s : State) (op : HostOp) (rest : List HostOp), (s.busy = false ∨ s.engineDelay ≠ 0) → s.host = op :: rest →
    ∃ t, t = perform op { s with engineDelay := if s.busy then s.engineDelay - 1 else s.engineDelay } ∧
      (op ≠ .poll → step s = .next { t with host := rest }) ∧
      (op = .poll → t.v.getLsbD 0 = false → step s = .next { t with host := rest }) ∧
      (op = .poll → t.v.getLsbD 0 = true → step s = .next { t with host := op :: rest }))

/-! ### The commands -/

/-- R140: NOP changes nothing and returns BUSY to 0, whatever the state; its whole word is zero. -/
def Obligations.NopOnlyReturnsBusy : Prop :=
  encode .nop = 0x00000000 ∧ (∀ s : State, exec .nop s = .next { s with busy := false }) ∧ MalformedRaises 0x0

/-- R142: CONFIG: the error cases in their order, and otherwise cells below `m` cleared, every other cell kept, CONFIGURED set,
and nothing else changed. -/
def Obligations.ConfigConfiguresOnce : Prop :=
  encode .config = 0x00000001 ∧ MalformedRaises 0x1 ∧
  (∀ s : State, s.configured = true → exec .config s = .next (s.failed .configLocked)) ∧
  (∀ s : State, s.configured = false → s.params.bitCountMax < s.bitCount.toNat →
    exec .config s = .next (s.failed .badConfig)) ∧
  (∀ s : State, s.configured = false → s.bitCount.toNat ≤ s.params.bitCountMax →
    ∃ t, exec .config s = .next t ∧ t = { s with busy := false, configured := true, bits := t.bits } ∧
      ∀ j, t.bits.get j = if j < s.bitCount.toNat then false else s.bits.get j)

/-- R114: HASH writes HASH_OUT and nothing else, needs no configured filter, and raises ITEM_LEN; its corner cases and its
example. -/
def Obligations.HashWritesHashOut : Prop :=
  encode .hash = 0x00000002 ∧ MalformedRaises 0x2 ∧
  (∀ s : State, s.ItemReady →
    exec .hash s = .next { s with hashOut := mh3 s.params.tailExt s.theItem s.seed, busy := false }) ∧
  (∀ s : State, s.params.itemMax < s.itemLen.toNat → exec .hash s = .next (s.failed .itemLen)) ∧
  (∀ s : State, s.itemLen = 0 → exec .hash s = .next { s with hashOut := fmix s.seed, busy := false }) ∧
  (∀ ext, mh3 ext [] 0 = 0) ∧
  mh3 .zero [0x61, 0x62, 0x63] 0x9747b28c = 0xc84a62dd

/-- HASHPAIR (R115) writes H1 and H2 under the two fixed seeds, ignores SEED, changes nothing else, needs no configured filter,
and raises ITEM_LEN; its two worked values. R115's remark on `h2` a multiple of `bit_count` is R134's matter (log 26). -/
def Obligations.HashPairWritesBothHashes : Prop :=
  encode .hashPair = 0x00000003 ∧ MalformedRaises 0x3 ∧
  (∀ s : State, s.ItemReady →
    exec .hashPair s = .next { s with
      h1 := mh3 s.params.tailExt s.theItem 0x9747b28c, h2 := mh3 s.params.tailExt s.theItem 0x12345678, busy := false }) ∧
  (∀ s : State, s.params.itemMax < s.itemLen.toNat → exec .hashPair s = .next (s.failed .itemLen)) ∧
  (mh3 .zero [] 0x9747b28c = 0xebb6c228 ∧ mh3 .zero [] 0x12345678 = 0xe37cd1bc) ∧
  (mh3 .zero [0x61, 0x70, 0x70, 0x6c, 0x65] 0x9747b28c = 0xa85fe4f6 ∧
    mh3 .zero [0x61, 0x70, 0x70, 0x6c, 0x65] 0x12345678 = 0x78ccfba0)

/-- R145: INSERT writes H1 and H2, sets exactly the indexed cells (none when `m = 0`), changes nothing else, and raises
NOT_CONFIGURED, then ITEM_LEN; its example. -/
def Obligations.InsertSetsIndexedCells : Prop :=
  encode .insert = 0x00000004 ∧ MalformedRaises 0x4 ∧
  (∀ s : State, s.configured = false → exec .insert s = .next (s.failed .notConfigured)) ∧
  (∀ s : State, s.configured = true → s.params.itemMax < s.itemLen.toNat →
    exec .insert s = .next (s.failed .itemLen)) ∧
  (∀ s : State, s.configured = true → s.ItemReady →
    ∃ t, exec .insert s = .next t ∧
      t = { s with
        h1 := mh3 s.params.tailExt s.theItem 0x9747b28c, h2 := mh3 s.params.tailExt s.theItem 0x12345678,
        bits := t.bits, busy := false } ∧
      ∀ j, t.bits.get j = true ↔
        s.bits.get j = true ∨
        (s.bitCount ≠ 0 ∧ ∃ i < s.hashCount.toNat, j = idx s.params.idxMode t.h1 t.h2 i s.bitCount.toNat)) ∧
  (mh3 .zero [0x61, 0x70, 0x70, 0x6c, 0x65] 0x9747b28c = 0xa85fe4f6 ∧
    mh3 .zero [0x61, 0x70, 0x70, 0x6c, 0x65] 0x12345678 = 0x78ccfba0) ∧
  indexList .wrap32 0xa85fe4f6 0x78ccfba0 7 958 = [306, 786, 692, 214, 120, 600, 506]

/-- R147: QUERY writes H1, H2 and RESULT and nothing else; RESULT is 1 when `m = 0` and otherwise exactly when every indexed
cell is 1; it raises NOT_CONFIGURED, then ITEM_LEN. The examples are F1 to F3 of 95_test_vectors.md, on the cells. -/
def Obligations.QueryTestsIndexedCells : Prop :=
  encode .query = 0x00000005 ∧ MalformedRaises 0x5 ∧
  (∀ s : State, s.configured = false → exec .query s = .next (s.failed .notConfigured)) ∧
  (∀ s : State, s.configured = true → s.params.itemMax < s.itemLen.toNat →
    exec .query s = .next (s.failed .itemLen)) ∧
  (∀ s : State, s.configured = true → s.ItemReady →
    ∃ t, exec .query s = .next t ∧
      t = { s with
        h1 := mh3 s.params.tailExt s.theItem 0x9747b28c, h2 := mh3 s.params.tailExt s.theItem 0x12345678,
        result := t.result, busy := false } ∧
      (t.result = true ↔
        s.bitCount = 0 ∨
        ∀ i < s.hashCount.toNat, s.bits.get (idx s.params.idxMode t.h1 t.h2 i s.bitCount.toNat) = true)) ∧
  (∀ s : State, s.configured = true → s.ItemReady → s.bitCount ≠ 0 → s.hashCount ≠ 0 →
    (∀ j < s.bitCount.toNat, s.bits.get j = false) → ∃ t, exec .query s = .next t ∧ t.result = false) ∧
  (mh3 .zero [0x62, 0x61, 0x6e, 0x61, 0x6e, 0x61] 0x9747b28c = 0xe64c812d ∧
    mh3 .zero [0x62, 0x61, 0x6e, 0x61, 0x6e, 0x61] 0x12345678 = 0xcd22f056) ∧
  (let apple := BitArray.setAll [] (indexList .wrap32 0xa85fe4f6 0x78ccfba0 7 958)
   apple.testAll (indexList .wrap32 0xa85fe4f6 0x78ccfba0 7 958) = true ∧
   apple.testAll (indexList .wrap32 0xe64c812d 0xcd22f056 7 958) = false)

/-- R133: INDEX writes IDX_OUT with the index law's value and nothing else, for every `i`; it raises NOT_CONFIGURED, then
ZERO_MODULUS; its corner cases and its example in both modes. -/
def Obligations.IndexWritesIdxOut : Prop :=
  (∀ i ≤ 65535, encode (.index i) = BitVec.ofNat 32 (i * 2 ^ 16 + 6)) ∧ MalformedRaises 0x6 ∧
  (∀ (s : State) (i : Nat), s.configured = false → exec (.index i) s = .next (s.failed .notConfigured)) ∧
  (∀ (s : State) (i : Nat), s.configured = true → s.bitCount = 0 →
    exec (.index i) s = .next (s.failed .zeroModulus)) ∧
  (∀ (s : State) (i : Nat), s.configured = true → s.bitCount ≠ 0 →
    ∃ t, exec (.index i) s = .next t ∧ t = { s with idxOut := t.idxOut, busy := false } ∧
      t.idxOut.toNat = idx s.params.idxMode s.h1 s.h2 i s.bitCount.toNat ∧
      (i = 0 → t.idxOut.toNat = s.h1.toNat % s.bitCount.toNat) ∧
      (s.bitCount = 1 → t.idxOut = 0) ∧
      (s.h2 = 0 → t.idxOut.toNat = s.h1.toNat % s.bitCount.toNat) ∧
      (s.h1 = 0 → s.h2 = 0 → t.idxOut = 0)) ∧
  idx .wrap32 0xa85fe4f6 0x78ccfba0 1 958 = 786 ∧ idx .exactSum 0xa85fe4f6 0x78ccfba0 1 958 = 212

/-- Fetching the item (R113), for all four commands that read it: too long is ITEM_LEN and nothing else, a readable item is the
cells in index order, and an unwritten cell is the model's fault. That the fault comes after the command's own checks, and names
the first unwritten cell, is the model's (DEDUCED from R113 and R174, log 27). -/
def Obligations.ItemFetchOutcomes : Prop :=
  (∀ s : State, s.params.itemMax < s.itemLen.toNat →
    exec .hash s = .next (s.failed .itemLen) ∧ exec .hashPair s = .next (s.failed .itemLen) ∧
    (s.configured = true →
      exec .insert s = .next (s.failed .itemLen) ∧ exec .query s = .next (s.failed .itemLen))) ∧
  (∀ s : State, s.itemLen.toNat ≤ s.params.itemMax → ∀ d : List Byte, d.length = s.itemLen.toNat →
    (∀ a, (h : a < d.length) → s.item.read a = some d[a]) → itemOperand s = .item d) ∧
  (∀ s : State, s.itemLen = 0 → itemOperand s = .item []) ∧
  (∀ (s : State) (a : Nat), s.itemLen.toNat ≤ s.params.itemMax → a < s.itemLen.toNat → s.item.read a = none →
    (∀ b < a, (s.item.read b).isSome = true) →
    exec .hash s = .fault (.unwrittenItemCell a) ∧ exec .hashPair s = .fault (.unwrittenItemCell a) ∧
    (s.configured = true →
      exec .insert s = .fault (.unwrittenItemCell a) ∧ exec .query s = .fault (.unwrittenItemCell a)))

/-- R141: INSERT, QUERY, INDEX and every access to the bit-array window are refused before CONFIG; HASH, HASHPAIR, NOP and
CONFIG are not. -/
def Obligations.UnconfiguredUseIsRefused : Prop :=
  (∀ s : State, s.configured = false →
    exec .insert s = .next (s.failed .notConfigured) ∧ exec .query s = .next (s.failed .notConfigured) ∧
    (∀ i, exec (.index i) s = .next (s.failed .notConfigured)) ∧
    (s.busy = false → ∀ w < 2 ^ 27, ∀ v : Word,
      hostRead (BitVec.ofNat 32 (0x20000000 + 4 * w)) 4 s = { s.raise .notConfigured with v := 0 } ∧
      hostWrite (BitVec.ofNat 32 (0x20000000 + 4 * w)) 4 v s = s.raise .notConfigured)) ∧
  (∀ s : State, s.configured = false →
    (∃ t, exec .nop s = .next t ∧ t.err = s.err) ∧
    (s.bitCount.toNat ≤ s.params.bitCountMax → ∃ t, exec .config s = .next t ∧ t.err = s.err ∧ t.configured = true) ∧
    (s.ItemReady → (∃ t, exec .hash s = .next t ∧ t.err = s.err) ∧ ∃ t, exec .hashPair s = .next t ∧ t.err = s.err))

/-- R149: a degenerate filter: INSERT sets no cell and QUERY gives 1; INDEX with `m = 0` raises ZERO_MODULUS. -/
def Obligations.DegenerateFilterAnswersTrue : Prop :=
  (∀ s : State, s.configured = true → s.ItemReady → (s.bitCount = 0 ∨ s.hashCount = 0) →
    (∃ t, exec .insert s = .next t ∧ ∀ j, t.bits.get j = s.bits.get j) ∧
    (∃ t, exec .query s = .next t ∧ t.result = true)) ∧
  (∀ (s : State) (i : Nat), s.configured = true → s.bitCount = 0 →
    exec (.index i) s = .next (s.failed .zeroModulus))

/-- R146: INSERT is idempotent, monotone, commutative over a sequence of items (each
loaded by R91's `item` and inserted), and never fails on a configured filter with
`ITEM_LEN <= ITEM_MAX`; an unwritten cell is the model's fault (R113), no error of the block. -/
def Obligations.InsertLaws : Prop :=
  (∀ s t u : State, exec .insert s = .next t → exec .insert t = .next u → ∀ j, u.bits.get j = t.bits.get j) ∧
  (∀ s t : State, exec .insert s = .next t → ∀ j, s.bits.get j = true → t.bits.get j = true) ∧
  (∀ (s : State) (ds es : List (List Byte)), s.params.Valid → s.configured = true → s.busy = false →
    (∀ d ∈ ds, d.length ≤ s.params.itemMax) → (∀ d, d ∈ ds ↔ d ∈ es) →
    ∃ t u, insertSequence ds s = .next t ∧ insertSequence es s = .next u ∧ ∀ j, t.bits.get j = u.bits.get j) ∧
  (∀ s : State, s.configured = true → s.ItemReady → ∃ t, exec .insert s = .next t ∧ t.err = s.err) ∧
  (∀ s : State, s.configured = true → s.itemLen.toNat ≤ s.params.itemMax → ¬ s.ItemReady →
    ∃ a < s.itemLen.toNat, s.item.read a = none ∧ exec .insert s = .fault (.unwrittenItemCell a))

/-- No false negatives, over whole runs (R148 (a)): after an INSERT of an item and any number of steps without a platform reset,
whatever the host does in them, a QUERY of the same item answers 1. And saturation (R148 (d)): when every cell below `m` is 1,
every QUERY answers 1. -/
def Obligations.QueryHasNoFalseNegatives : Prop :=
  (∀ (s s1 s2 s3 : State) (n : Nat), s.configured = true → s.NoReset → s.ItemReady →
    exec .insert s = .next s1 → Sys2Proof.core.run n s1 = .next s2 →
    s2.ItemReady → s2.theItem = s.theItem → exec .query s2 = .next s3 → s3.result = true) ∧
  (∀ s : State, s.configured = true → s.ItemReady → (∀ j < s.bitCount.toNat, s.bits.get j = true) →
    ∃ t, exec .query s = .next t ∧ t.result = true)

/-- The frame of every command that answers a next state: BUSY is 0, the parameters, the operand registers, PENDING, the item
buffer and the host are unchanged, and each result register, the configured flag and the bit cells are changed by their own
commands only (R27, R28, R34 to R37, R41, R43); ERR is written only where it was 0 (R175). -/
def Obligations.CommandFrame : Prop :=
  ∀ (i : Instr) (s t : State), exec i s = .next t →
    t.busy = false ∧ t.params = s.params ∧ t.bitCount = s.bitCount ∧ t.hashCount = s.hashCount ∧
    t.itemLen = s.itemLen ∧ t.seed = s.seed ∧ t.pending = s.pending ∧ (s.err ≠ .none → t.err = s.err) ∧
    (∀ a, t.item.read a = s.item.read a) ∧ t.item = s.item ∧
    t.host = s.host ∧ t.v = s.v ∧ t.engineDelay = s.engineDelay ∧ t.schedule = s.schedule ∧ t.draws = s.draws ∧
    (i ≠ .config → t.configured = s.configured) ∧
    (i ≠ .hash → t.hashOut = s.hashOut) ∧
    (i ≠ .hashPair → i ≠ .insert → i ≠ .query → t.h1 = s.h1 ∧ t.h2 = s.h2) ∧
    (i ≠ .query → t.result = s.result) ∧
    ((∀ n, i ≠ .index n) → t.idxOut = s.idxOut) ∧
    (i ≠ .config → i ≠ .insert → ∀ j, t.bits.get j = s.bits.get j) ∧
    ((i = .config ∨ i = .insert) → ∀ j, s.bitCount.toNat ≤ j → t.bits.get j = s.bits.get j)

/-! ### Errors (spec/60_exceptions.md) -/

/-- R175: the first error since the last clear is kept, and a pending error blocks nothing: commands and accesses do the same
whatever ERR holds, but for ERR itself and a read of STATUS, which shows it. -/
def Obligations.FirstErrorIsKept : Prop :=
  (∀ (s : State) (c : ErrCode), s.raise c = { s with err := if s.err = .none then c else s.err }) ∧
  (∀ (i : Instr) (s : State) (e : ErrCode),
    mapNext State.dropErr (exec i { s with err := e }) = mapNext State.dropErr (exec i s)) ∧
  (∀ (off : Word) (n : Nat) (v : Word) (s : State) (e : ErrCode),
    (hostWrite off n v { s with err := e }).dropErr = (hostWrite off n v s).dropErr) ∧
  (∀ (off : Word) (n : Nat) (s : State) (e : ErrCode), off ≠ 0x0C →
    (hostRead off n { s with err := e }).dropErr = (hostRead off n s).dropErr)

/-- Errors are precise (R171, R176, R198): from ERR = 0, a command or a host access that records an error changes nothing else,
but that the command ends (BUSY 0) and a failed read returns 0. -/
def Obligations.ErrorsArePrecise : Prop :=
  (∀ s t : State, s.err = .none → engineStep s = .next t → t.err ≠ .none → t = { s with err := t.err, busy := false }) ∧
  (∀ (off : Word) (n : Nat) (v : Word) (s t : State), s.err = .none → hostWrite off n v s = t → t.err ≠ .none →
    t = { s with err := t.err }) ∧
  (∀ (off : Word) (n : Nat) (s t : State), s.err = .none → hostRead off n s = t → t.err ≠ .none →
    t = { s with err := t.err, v := 0 })

/-- R177: a STATUS write clears ERR while BUSY = 0 and raises BUSY otherwise; reset clears ERR; nothing else does. -/
def Obligations.ErrIsClearedOnlyByStatusWriteOrReset : Prop :=
  (∀ (s : State) (v : Word), s.busy = false → hostWrite 0x0C 4 v s = { s with err := .none }) ∧
  (∀ (s : State) (v : Word), s.busy = true →
    hostWrite 0x0C 4 v s = { s with err := if s.err = .none then .busy else s.err }) ∧
  (∀ p : Params, (State.resetWith p).err = .none) ∧ (∀ s : State, (perform .platformReset s).err = .none) ∧
  (∀ s t : State, step s = .next t → s.err ≠ .none → t.err ≠ s.err →
    (t.err = .none ∧ s.busy = false ∧ ∃ v rest, s.host = .write 0x0C 4 v :: rest) ∨ s.ResetNext)

/-- The only errors a command that reads the item records are NOT_CONFIGURED and ITEM_LEN, and on a configured filter with a
readable item INSERT and QUERY succeed (R172). -/
def Obligations.HashingRaisesNoErrorOfItsOwn : Prop :=
  (∀ (i : Instr) (s t : State), i = .hash ∨ i = .hashPair ∨ i = .insert ∨ i = .query → s.err = .none →
    exec i s = .next t → t.err = .none ∨ t.err = .notConfigured ∨ t.err = .itemLen) ∧
  (∀ s : State, s.configured = true → s.ItemReady →
    (∃ t, exec .insert s = .next t ∧ t.err = s.err) ∧ ∃ t, exec .query s = .next t ∧ t.err = s.err)

/-- No step is refused, and a step faults only where a command reads an item cell not written since reset (R41, R113, R182). That
it faults only with `ITEM_LEN <= ITEM_MAX`, and for INSERT and QUERY only on a configured filter, is the order of the checks (R113,
R141, R174) as the model reads it (DEDUCED, log 27). -/
def Obligations.OnlyUnwrittenItemCellsStopTheMachine : Prop :=
  (∀ (s : State) (r : Refusal), step s ≠ .refused r) ∧
  (∀ (s : State) (a : Nat), step s = .fault (.unwrittenItemCell a) →
    engineTurn s = true ∧ a < s.itemLen.toNat ∧ s.itemLen.toNat ≤ s.params.itemMax ∧ s.item.read a = none ∧
    ∃ i, decode s.pending = .ok i ∧
      (i = .hash ∨ i = .hashPair ∨ (s.configured = true ∧ (i = .insert ∨ i = .query))))

/-! ### Invariants of every step -/

/-- The invariant: every step that answers a next state keeps it, from every state that meets it (R20, R37, R38, R41, R141,
R142; the canonical forms are the model's). -/
def Obligations.StepKeepsTheInvariant : Prop := ∀ s t : State, s.Inv → step s = .next t → t.Inv

/-- The invariant holds right after reset, under every valid parameters (R44). -/
def Obligations.ResetMeetsTheInvariant : Prop :=
  State.reset.Inv ∧ ∀ p : Params, p.Valid → (State.resetWith p).Inv

/-- R39: once configured, no step but a platform reset changes a cell below `bit_count` from 1 to 0; cells at or beyond
`bit_count` are not written at all. Cells are cleared by CONFIG alone, which a configured filter refuses. -/
def Obligations.CellsAreNeverCleared : Prop :=
  ∀ (s t : State) (j : Nat), s.configured = true → ¬ s.ResetNext → step s = .next t →
    (s.bits.get j = true → t.bits.get j = true) ∧ (s.bitCount.toNat ≤ j → t.bits.get j = s.bits.get j)

/-- R40: over any number of steps without a platform reset, the configured `bit_count` and `hash_count` do not change; a second
CONFIG and the writes to BIT_COUNT and HASH_COUNT are refused. -/
def Obligations.ConfiguredParametersNeverChange : Prop :=
  (∀ (n : Nat) (s t : State), s.configured = true → s.NoReset → Sys2Proof.core.run n s = .next t →
    t.configured = true ∧ t.bitCount = s.bitCount ∧ t.hashCount = s.hashCount) ∧
  (∀ s : State, s.configured = true → exec .config s = .next (s.failed .configLocked)) ∧
  (∀ (s : State) (v : Word), s.configured = true → s.busy = false →
    hostWrite 0x10 4 v s = s.raise .configLocked ∧ hostWrite 0x14 4 v s = s.raise .configLocked)

/-- R26: BUSY: set by an accepted CMD write and by nothing else, cleared by the engine's step (and by reset, R190) and by
nothing else; 0 at reset. -/
def Obligations.BusyFollowsTheCommand : Prop :=
  (∀ (s : State) (v : Word), s.busy = false → (hostWrite 0x08 4 v s).busy = true) ∧
  (∀ s t : State, step s = .next t → s.busy = false → t.busy = true →
    ∃ v rest, s.host = .write 0x08 4 v :: rest ∧ t.pending = v) ∧
  (∀ s t : State, engineTurn s = true → step s = .next t → t.busy = false) ∧
  (∀ s t : State, step s = .next t → s.busy = true → t.busy = false → engineTurn s = true ∨ s.ResetNext) ∧
  (∀ p : Params, (State.resetWith p).busy = false)

/-! ### Reset -/

/-- R44: the values after reset, read through the registers, under any parameters; item cells count as unwritten. PENDING is
never read while BUSY = 0 and no bit cell is read before CONFIG: a step from such a state does the same whatever they hold. -/
def Obligations.ResetValues : Prop :=
  ∀ p : Params,
    let s := State.resetWith p
    readReg .id s = 0x43434246 ∧ readReg .version s = 0x00000001 ∧ readReg .status s = 0 ∧
    s.busy = false ∧ s.configured = false ∧ s.result = false ∧ s.err = .none ∧
    readReg .bitCount s = 0 ∧ readReg .hashCount s = 0 ∧ readReg .itemLen s = 0 ∧ readReg .seed s = 0 ∧
    readReg .hashOut s = 0 ∧ readReg .h1 s = 0 ∧ readReg .h2 s = 0 ∧ readReg .idxOut s = 0 ∧
    (∀ a, s.item.read a = none) ∧ (∃ q, State.reset = State.resetWith q) ∧
    (∀ (t : State) (c : Word), t.busy = false →
      mapNext State.dropPending (step { t with pending := c }) = mapNext State.dropPending (step t)) ∧
    (∀ (t : State) (b : BitArray), t.configured = false →
      mapNext State.dropBits (step { t with bits := b }) = mapNext State.dropBits (step t))

/-- A platform reset (R190) puts the block in its reset state from any state, a command in flight abandoned without effect. That
it is an element of the host's events, and that the host's fields survive it, is the model's (log 15). -/
def Obligations.PlatformResetRestoresResetState : Prop :=
  ∀ (s : State) (rest : List HostOp), (s.busy = false ∨ s.engineDelay ≠ 0) → s.host = .platformReset :: rest →
    step s = .next { State.resetWith s.params with host := rest, v := s.v, schedule := s.schedule, draws := s.draws }

/-! ### Registers and bus accesses (spec/10_state.md, spec/20_memory.md) -/

/-- R22, R23: ID and VERSION always read their constants, even while BUSY; a write to them raises BAD_ACCESS and changes
nothing. -/
def Obligations.IdentificationIsConstant : Prop :=
  (∀ s : State, hostRead 0x00 4 s = { s with v := 0x43434246 } ∧ hostRead 0x04 4 s = { s with v := 0x00000001 }) ∧
  (∀ (s : State) (v : Word), s.busy = false →
    hostWrite 0x00 4 v s = s.raise .badAccess ∧ hostWrite 0x04 4 v s = s.raise .badAccess)

/-- R24: an accepted CMD write latches the command and sets BUSY, changing nothing else of the block; the engine then performs
it; CMD reads 0. The delay, the schedule and the draws are the model's own (log 1). -/
def Obligations.CmdWriteIssuesTheCommand : Prop :=
  (∀ (s : State) (v : Word), s.busy = false →
    ∃ t, hostWrite 0x08 4 v s = t ∧
      t = { s with
        pending := v, busy := true, engineDelay := t.engineDelay, schedule := t.schedule, draws := t.draws } ∧
      ∀ i, decode v = .ok i → step { t with engineDelay := 0 } = exec i { t with engineDelay := 0 }) ∧
  (∀ s : State, s.busy = false → hostRead 0x08 4 s = { s with v := 0 })

/-- R25: STATUS reads as its four fields in their places, every other bit 0, at any time, ERR with the number R170's table gives
each code; a write clears ERR and ignores its data, changing no other field. -/
def Obligations.StatusReadsItsFields : Prop :=
  (∀ s : State, ∃ (w : Word) (c : Nat), hostRead 0x0C 4 s = { s with v := w } ∧
    w.toNat = c * 2 ^ 8 + s.result.toNat * 2 ^ 2 + s.configured.toNat * 2 + s.busy.toNat ∧
    (s.err = .none → c = 0) ∧ (s.err = .illegalCmd → c = 1) ∧ (s.err = .notConfigured → c = 2) ∧
    (s.err = .configLocked → c = 3) ∧ (s.err = .badConfig → c = 4) ∧ (s.err = .itemLen → c = 5) ∧
    (s.err = .busy → c = 6) ∧ (s.err = .badAccess → c = 7) ∧ (s.err = .zeroModulus → c = 8)) ∧
  (∀ (s : State) (v : Word), s.busy = false → hostWrite 0x0C 4 v s = { s with err := .none })

/-- The other registers as the host reads them while no command is in flight (R30 to R37): HASH_COUNT's high half reads 0. -/
def Obligations.RegistersReadTheirValues : Prop :=
  ∀ s : State, s.busy = false →
    hostRead 0x10 4 s = { s with v := s.bitCount } ∧ hostRead 0x14 4 s = { s with v := s.hashCount.setWidth 32 } ∧
    hostRead 0x18 4 s = { s with v := s.itemLen } ∧ hostRead 0x1C 4 s = { s with v := s.seed } ∧
    hostRead 0x20 4 s = { s with v := s.hashOut } ∧ hostRead 0x24 4 s = { s with v := s.h1 } ∧
    hostRead 0x28 4 s = { s with v := s.h2 } ∧ hostRead 0x2C 4 s = { s with v := s.idxOut }

/-- The other registers as the host writes them while no command is in flight (R21, R30 to R37): plain stores, HASH_COUNT's high
half ignored, the two parameters locked once configured, the result registers read-only. -/
def Obligations.RegisterWritesStore : Prop :=
  ∀ (s : State) (v : Word), s.busy = false →
    hostWrite 0x18 4 v s = { s with itemLen := v } ∧ hostWrite 0x1C 4 v s = { s with seed := v } ∧
    (s.configured = false →
      hostWrite 0x10 4 v s = { s with bitCount := v } ∧
      hostWrite 0x14 4 v s = { s with hashCount := BitVec.ofNat 16 (v.toNat % 2 ^ 16) }) ∧
    (s.configured = true →
      hostWrite 0x10 4 v s = s.raise .configLocked ∧ hostWrite 0x14 4 v s = s.raise .configLocked) ∧
    (∀ off : Word, off = 0x20 ∨ off = 0x24 ∨ off = 0x28 ∨ off = 0x2C → hostWrite off 4 v s = s.raise .badAccess)

/-- R55 (and R52): an access is mapped exactly when its region, width and alignment allow it; every other access raises
BAD_ACCESS with no other effect, and a read then returns 0. -/
def Obligations.IllegalAccessesAreRefused : Prop :=
  ∀ (s : State) (off : Word) (n : Nat) (v : Word), s.params.Valid →
    (LegalAccess s.params off n ↔ (mapAccess s.params off n).isSome = true) ∧
    (¬ LegalAccess s.params off n →
      hostRead off n s = { s.raise .badAccess with v := 0 } ∧ hostWrite off n v s = s.raise .badAccess)

/-- R58: while BUSY, 32-bit reads of ID, VERSION and STATUS pass and every other access raises BUSY. -/
def Obligations.BusyRefusesOtherAccesses : Prop :=
  ∀ (s : State) (off : Word) (n : Nat) (v : Word), s.params.Valid → s.busy = true → LegalAccess s.params off n →
    hostWrite off n v s = s.raise .busy ∧
    (off ≠ 0x00 → off ≠ 0x04 → off ≠ 0x0C → hostRead off n s = { s.raise .busy with v := 0 }) ∧
    (off = 0x00 ∨ off = 0x04 ∨ off = 0x0C → ∃ w, hostRead off n s = { s with v := w })

/-- R57: the checks in their order, the first that fails deciding the outcome: mapping, width and alignment; the busy rule; the
target's own rule. A failed access changes nothing but ERR, and a failed read returns 0. -/
def Obligations.AccessChecksInOrder : Prop :=
  ∀ (s : State) (off : Word) (n : Nat) (v : Word), s.params.Valid →
    (¬ LegalAccess s.params off n →
      hostWrite off n v s = s.raise .badAccess ∧ hostRead off n s = { s.raise .badAccess with v := 0 }) ∧
    (LegalAccess s.params off n → s.busy = true →
      hostWrite off n v s = s.raise .busy ∧
      (off ≠ 0x00 → off ≠ 0x04 → off ≠ 0x0C → hostRead off n s = { s.raise .busy with v := 0 })) ∧
    (LegalAccess s.params off n → s.busy = false →
      (off.toNat ∈ [0x00, 0x04, 0x20, 0x24, 0x28, 0x2C] → hostWrite off n v s = s.raise .badAccess) ∧
      (s.configured = true → off.toNat ∈ [0x10, 0x14] → hostWrite off n v s = s.raise .configLocked) ∧
      (s.configured = false → 0x20000000 ≤ off.toNat →
        hostWrite off n v s = s.raise .notConfigured ∧ hostRead off n s = { s.raise .notConfigured with v := 0 }) ∧
      (off.toNat ∉ [0x00, 0x04, 0x20, 0x24, 0x28, 0x2C] →
        (s.configured = true → off.toNat ∉ [0x10, 0x14]) → (s.configured = false → off.toNat < 0x20000000) →
        ∃ t, mapAccess s.params off n = some t ∧ hostWrite off n v s = writeTarget t v s) ∧
      ((s.configured = false → off.toNat < 0x20000000) →
        ∃ t, mapAccess s.params off n = some t ∧
          hostRead off n s = { s with v := (readTarget t s).1, draws := (readTarget t s).2 }))

/-- The item window (R53): byte and word writes deposit their bytes, least significant first, and nothing else; reads give the
bytes back, a word read of partly written cells its written ones; a byte read of a cell never written gives a free byte. That a
byte read zero-extends into `v` is the model's (DESIGN CHOICE, log 12), and so are the count of free bytes drawn and the word read
of partly written cells (DESIGN CHOICE, log 11). -/
def Obligations.ItemWindowHoldsBytes : Prop :=
  ∀ (s : State) (a : Nat), s.params.Valid → s.busy = false → a < s.params.itemMax →
    (∀ v : Word, ∃ m, hostWrite (BitVec.ofNat 32 (0x800 + a)) 1 v s = { s with item := m } ∧
      ∀ b, m.read b = if b = a then some (v.extractLsb' 0 8) else s.item.read b) ∧
    (∀ x, s.item.read a = some x → hostRead (BitVec.ofNat 32 (0x800 + a)) 1 s = { s with v := x.setWidth 32 }) ∧
    (s.item.read a = none →
      hostRead (BitVec.ofNat 32 (0x800 + a)) 1 s =
        { s with v := (Config.freeByte s.draws).setWidth 32, draws := s.draws + 1 }) ∧
    (a % 4 = 0 → ∀ v : Word, ∃ m, hostWrite (BitVec.ofNat 32 (0x800 + a)) 4 v s = { s with item := m } ∧
      ∀ b, m.read b = if a ≤ b ∧ b < a + 4 then some (v.extractLsb' (8 * (b - a)) 8) else s.item.read b) ∧
    (a % 4 = 0 → ∀ x0 x1 x2 x3, s.item.read a = some x0 → s.item.read (a + 1) = some x1 →
      s.item.read (a + 2) = some x2 → s.item.read (a + 3) = some x3 →
      ∃ w : Word, hostRead (BitVec.ofNat 32 (0x800 + a)) 4 s = { s with v := w } ∧
        w.toNat = x0.toNat + x1.toNat * 2 ^ 8 + x2.toNat * 2 ^ 16 + x3.toNat * 2 ^ 24) ∧
    (a % 4 = 0 → ∃ (w : Word) (n : Nat),
      hostRead (BitVec.ofNat 32 (0x800 + a)) 4 s = { s with v := w, draws := n } ∧
      ∀ b < 4, ∀ x, s.item.read (a + b) = some x → w.extractLsb' (8 * b) 8 = x)

/-- R160: a window read: bit `31-j` is cell `32w + j` below `m`, else 0, with no error; its bytes from the most significant down
are bytes `4w .. 4w+3` of the artifact's bit region; refused before CONFIG. -/
def Obligations.WindowReadsPackedCells : Prop :=
  ∀ (s : State) (w : Nat), w < 2 ^ 27 → s.busy = false →
    (s.configured = false →
      hostRead (BitVec.ofNat 32 (0x20000000 + 4 * w)) 4 s = { s.raise .notConfigured with v := 0 }) ∧
    (s.configured = true →
      ∃ v : Word, hostRead (BitVec.ofNat 32 (0x20000000 + 4 * w)) 4 s = { s with v := v } ∧
        (∀ j < 32, v.getLsbD (31 - j) = (decide (32 * w + j < s.bitCount.toNat) && s.bits.get (32 * w + j))) ∧
        ∀ i < 4, 4 * w + i < (s.bitCount.toNat + 7) / 8 →
          (bitRegion s.bits s.bitCount.toNat)[4 * w + i]? = some (v.extractLsb' (8 * (3 - i)) 8))

/-- R161: a window write sets the cells below `m` whose bits are 1 and changes no other cell; refused before CONFIG. -/
def Obligations.WindowWriteOrsCells : Prop :=
  ∀ (s : State) (w : Nat) (v : Word), w < 2 ^ 27 → s.busy = false →
    (s.configured = false →
      hostWrite (BitVec.ofNat 32 (0x20000000 + 4 * w)) 4 v s = s.raise .notConfigured) ∧
    (s.configured = true →
      ∃ b, hostWrite (BitVec.ofNat 32 (0x20000000 + 4 * w)) 4 v s = { s with bits := b } ∧
        (∀ j < 32, b.get (32 * w + j) =
          (s.bits.get (32 * w + j) || (decide (32 * w + j < s.bitCount.toNat) && v.getLsbD (31 - j)))) ∧
        ∀ i, i / 32 ≠ w → b.get i = s.bits.get i)

/-- R162: the laws of the window: (a) what a read after a write gives; (b) copying the words of one filter to a freshly
configured one with the same `m` copies every cell; (c) writing ones everywhere sets every cell, and every QUERY then answers
1. -/
def Obligations.WindowLaws : Prop :=
  (∀ (s : State) (w : Nat) (v : Word), w < 2 ^ 27 → s.busy = false → s.configured = true →
    (hostRead (BitVec.ofNat 32 (0x20000000 + 4 * w)) 4
      (hostWrite (BitVec.ofNat 32 (0x20000000 + 4 * w)) 4 v s)).v =
    (hostRead (BitVec.ofNat 32 (0x20000000 + 4 * w)) 4 s).v ||| (v &&& windowMask s.bitCount.toNat w)) ∧
  (∀ s r : State, s.busy = false → s.configured = true → r.busy = false → r.configured = true →
    r.bitCount = s.bitCount → (∀ j < r.bitCount.toNat, r.bits.get j = false) →
    ∀ j < s.bitCount.toNat,
      (performAll ((List.range ((s.bitCount.toNat + 31) / 32)).map (fun w =>
        w32 (BitVec.ofNat 32 (0x20000000 + 4 * w))
          (hostRead (BitVec.ofNat 32 (0x20000000 + 4 * w)) 4 s).v)) r).bits.get j = s.bits.get j) ∧
  (∀ s : State, s.busy = false → s.configured = true →
    ∃ t, t = performAll ((List.range ((s.bitCount.toNat + 31) / 32)).map (fun w =>
        w32 (BitVec.ofNat 32 (0x20000000 + 4 * w)) 0xFFFFFFFF)) s ∧
      (∀ j < s.bitCount.toNat, t.bits.get j = true) ∧
      (t.ItemReady → ∃ u, exec .query t = .next u ∧ u.result = true))

/-- Reads have no side effect (R59): a read changes only the host's `v`, the draw count, and ERR where it fails; and where it
drew no free byte, reading the same offset again gives the same value. -/
def Obligations.ReadsHaveNoSideEffect : Prop :=
  ∀ (s : State) (off : Word) (n : Nat),
    (∃ e w d, hostRead off n s = { s with err := e, v := w, draws := d } ∧ (e ≠ s.err → w = 0)) ∧
    ((hostRead off n s).draws = s.draws → (hostRead off n (hostRead off n s)).v = (hostRead off n s).v)

/-! ### The host and the engine (spec/20_memory.md section 5) -/

/-- While a command is in flight no host access changes its operands (R73, R196): until the engine's turn every step but a
platform reset changes only ERR, the host's `v` and program, and the countdown. -/
def Obligations.OperandsAreStableWhileBusy : Prop :=
  ∀ s t : State, s.busy = true → engineTurn s = false → ¬ s.ResetNext → step s = .next t →
    t = { s with err := t.err, v := t.v, host := t.host, engineDelay := s.engineDelay - 1 }

/-- Whenever the engine's step falls, the command does the same (R72, R73, I11): after any number of host accesses that come
before it, the engine's step gives the result it would have given at once, but for ERR and the host's own view. -/
def Obligations.ScheduleDoesNotChangeTheResult : Prop :=
  ∀ (n : Nat) (s t : State), s.busy = true → s.NoReset → n ≤ s.engineDelay → Sys2Proof.core.run n s = .next t →
    t.busy = true → mapNext State.dropHostView (engineStep t) = mapNext State.dropHostView (engineStep s)

/-- Every accepted command is performed after finitely many host accesses (R75): at most `engineDelay` of them, a number the
model's log 1 leaves free. -/
def Obligations.EngineStepComes : Prop :=
  ∀ s : State, s.busy = true → s.NoReset →
    ∃ n ≤ s.engineDelay, ∃ t, Sys2Proof.core.run n s = .next t ∧ engineTurn t = true ∧ t.pending = s.pending ∧
      ∀ u, step t = .next u → u.busy = false

/-! ### The hash core (spec/40_hash_core.md) -/

/-- R101: a block is the little-endian number of its four bytes. -/
def Obligations.BlockReadIsLittleEndian : Prop :=
  ∀ (d : List Byte) (b : Nat) (h : 4 * b + 3 < d.length),
    (block d b).toNat =
      d[4 * b].toNat + d[4 * b + 1].toNat * 2 ^ 8 + d[4 * b + 2].toNat * 2 ^ 16 + d[4 * b + 3].toNat * 2 ^ 24

/-- R102, R103, R108: the key mix, the state update and the finalizer, with their constants, over core Lean's rotation. -/
def Obligations.MixingStepsAreMurmur3 : Prop :=
  (∀ k : Word, mixK k = (k * 0xcc9e2d51).rotateLeft 15 * 0x1b873593) ∧
  (∀ h km : Word, mixH h km = (h ^^^ km).rotateLeft 13 * 5 + 0xe6546b64) ∧
  (∀ h : Word,
    let a := (h ^^^ (h >>> 16)) * 0x85ebca6b
    let b := (a ^^^ (a >>> 13)) * 0xc2b2ae35
    fmix h = b ^^^ (b >>> 16))

/-- R105: the tail fold, for each length of the tail. -/
def Obligations.TailFoldsByLength : Prop :=
  ∀ (ext : TailExt) (d : List Byte) (h : Word) (x y z : Byte), d.length % 4 = 0 →
    foldTail ext d h = h ∧
    foldTail ext (d ++ [x]) h = h ^^^ mixK (widenTail ext x) ∧
    foldTail ext (d ++ [x, y]) h = h ^^^ mixK (widenTail ext y <<< 8 ^^^ widenTail ext x) ∧
    foldTail ext (d ++ [x, y, z]) h =
      h ^^^ mixK (widenTail ext z <<< 16 ^^^ widenTail ext y <<< 8 ^^^ widenTail ext x)

/-- R106: the widening of a tail byte: ZERO keeps the unsigned value, SIGN the signed one; they give the same hash unless some
tail byte is 0x80 or above, so always when there is no tail. -/
def Obligations.TailWideningDiffersOnlyOnHighBytes : Prop :=
  (∀ x : Byte, (widenTail .zero x).toNat = x.toNat ∧ (widenTail .sign x).toInt = x.toInt ∧
    (0x80 ≤ x.toNat → widenTail .sign x = 0xFFFFFF00 ||| x.setWidth 32)) ∧
  (∀ (d : List Byte) (seed : Word),
    (∀ j, 4 * (d.length / 4) ≤ j → (h : j < d.length) → d[j].toNat < 0x80) → mh3 .zero d seed = mh3 .sign d seed) ∧
  (∀ (d : List Byte) (seed : Word), d.length % 4 = 0 → mh3 .zero d seed = mh3 .sign d seed)

/-- R111: the laws of the hash: (a) FMIX is a bijection; (b), (c) the empty item; (d) a zero tail byte leaves the state as it is,
and the length fold still tells the items apart. -/
def Obligations.HashLaws : Prop :=
  Function.Bijective fmix ∧
  (fmix 0 = 0 ∧ ∀ ext, mh3 ext [] 0 = 0) ∧
  (∀ (ext : TailExt) (seed : Word), mh3 ext [] seed = fmix seed) ∧
  (∀ (ext : TailExt) (d : List Byte) (h seed : Word), d.length % 4 = 0 →
    mixK 0 = 0 ∧ foldTail ext (d ++ [0]) h = h ∧ mh3 ext (d ++ [0]) seed ≠ mh3 ext d seed)

/-- MH3 step by step (R100, R104, R107): the whole blocks in increasing order, each mixed into the state, bytes of a tail taking no
part; then the tail; then the length; then the finalizer. And the pipeline of R112, in which the key mix of a block overlaps the
state stage of the block before, computes it. -/
def Obligations.PipelineComputesTheHash : Prop :=
  (∀ h : Word, mixBlocks [] h = h) ∧
  (∀ (d : List Byte) (x0 x1 x2 x3 : Byte) (h : Word), d.length % 4 = 0 →
    mixBlocks (d ++ [x0, x1, x2, x3]) h = mixH (mixBlocks d h) (mixK (block [x0, x1, x2, x3] 0))) ∧
  (∀ (d t : List Byte) (h : Word), d.length % 4 = 0 → t.length < 4 → mixBlocks (d ++ t) h = mixBlocks d h) ∧
  (∀ (ext : TailExt) (d : List Byte) (seed : Word),
    mh3 ext d seed = fmix (foldTail ext d (mixBlocks d seed) ^^^ BitVec.ofNat 32 d.length)) ∧
  (∀ (ext : TailExt) (d : List Byte) (seed : Word), mh3Pipelined ext d seed = mh3 ext d seed)

/-! ### The index generator (spec/41_index_generator.md) -/

/-- R130: the index law: WRAP32 is 32-bit arithmetic, EXACT is the exact sum, which is below 2^49. -/
def Obligations.IndexLaw : Prop :=
  ∀ (h1 h2 : Word) (i m : Nat), i ≤ 65535 → 1 ≤ m → m ≤ 2 ^ 32 - 1 →
    idx .wrap32 h1 h2 i m = (h1 + BitVec.ofNat 32 i * h2).toNat % m ∧
    idx .exactSum h1 h2 i m = (h1.toNat + i * h2.toNat) % m ∧ h1.toNat + i * h2.toNat < 2 ^ 49

/-- R134: the corner cases of the law: (a) `h2 mod m = 0`; (b) under WRAP32 equal entries are guaranteed for a power of two or
without a wrap, and for no other `m`; (c) the modes agree for a power of two; (d) `i = 0`. -/
def Obligations.IndexCornerCases : Prop :=
  (∀ (h1 h2 : Word) (i m : Nat), 1 ≤ m → h2.toNat % m = 0 → idx .exactSum h1 h2 i m = h1.toNat % m) ∧
  (∀ (mode : IdxMode) (h1 : Word) (i m : Nat), 1 ≤ m → idx mode h1 0 i m = h1.toNat % m) ∧
  (∀ (h1 h2 : Word) (i e : Nat), e ≤ 32 → h2.toNat % 2 ^ e = 0 → idx .wrap32 h1 h2 i (2 ^ e) = h1.toNat % 2 ^ e) ∧
  (∀ (h1 h2 : Word) (i m : Nat), 1 ≤ m → h2.toNat % m = 0 → h1.toNat + i * h2.toNat < 2 ^ 32 →
    idx .wrap32 h1 h2 i m = h1.toNat % m) ∧
  (∀ m : Nat, 1 ≤ m → m < 2 ^ 32 → (∀ e, m ≠ 2 ^ e) →
    ∃ (h1 h2 : Word) (i : Nat), i ≤ 65535 ∧ h2.toNat % m = 0 ∧ 2 ^ 32 ≤ h1.toNat + i * h2.toNat ∧
      idx .wrap32 h1 h2 i m ≠ h1.toNat % m) ∧
  (∀ (h1 h2 : Word) (i e : Nat), e ≤ 32 → idx .wrap32 h1 h2 i (2 ^ e) = idx .exactSum h1 h2 i (2 ^ e)) ∧
  (∀ (mode : IdxMode) (h1 h2 : Word) (m : Nat), 1 ≤ m → idx mode h1 h2 0 m = h1.toNat % m)

/-- R132, R135: the index list has exactly `k` entries, the incremental form gives the same list in both modes, and setting or
testing its cells depends only on the set of its entries, so on no order, repetition or grouping. -/
def Obligations.IndexListFormsAgree : Prop :=
  (∀ (mode : IdxMode) (h1 h2 : Word) (k m : Nat), 1 ≤ m →
    (indexList mode h1 h2 k m).length = k ∧ indexList mode h1 h2 0 m = [] ∧
    (∀ i, (h : i < k) → (indexList mode h1 h2 k m)[i]? = some (idx mode h1 h2 i m)) ∧
    indexListStepwise mode h1 h2 k m = indexList mode h1 h2 k m) ∧
  (∀ (b : BitArray) (l l' : List Nat), (∀ j, j ∈ l ↔ j ∈ l') →
    b.testAll l = b.testAll l' ∧ ∀ j, (b.setAll l).get j = (b.setAll l').get j)

/-! ### The host's software (spec/30_encoding.md R91, spec/70_reset_and_hazards.md) -/

/-- `item "s"` (R91, R193): performed while no command is in flight, it makes `s` the item, in byte order, records no error and
touches neither the bit array nor any other register. -/
def Obligations.ItemPseudoInstructionLoadsTheItem : Prop :=
  ∀ (s : State) (d : List Byte), s.params.Valid → s.busy = false → d.length ≤ s.params.itemMax →
    ∃ t, performAll (item d) s = t ∧ t.ItemReady ∧ t.theItem = d ∧
      t = { s with item := t.item, itemLen := BitVec.ofNat 32 d.length } ∧
      ∀ a, d.length ≤ a → t.item.read a = s.item.read a

/-- The artifact codec (R207 to R209; host software): reading back the artifact the writer emits gives exactly `bit_count`,
`hash_count` and the cells below `bit_count`; its length is `12 + ceil(bit_count/8)`; bytes after the bit region are ignored; a
wrong magic and a truncated stream are rejected. Construction from raw state (R144): its window writes give a freshly configured
filter exactly the listed cells, and a list of another length than `bit_count` is the host's fault (I19; its form is the model's,
log 28). -/
def Obligations.ArtifactRoundTrip : Prop :=
  (∀ (s : State) (extra : List Byte),
    (writeArtifact s).length = 12 + (s.bitCount.toNat + 7) / 8 ∧
    readArtifact (writeArtifact s ++ extra) =
      .ok { bitCount := s.bitCount, hashCount := s.hashCount, cells := (List.range s.bitCount.toNat).map s.bits.get }) ∧
  (∀ a : List Byte, a.take 4 ≠ [0x43, 0x43, 0x42, 0x46] → readArtifact a = .error .magicMismatch) ∧
  (∀ a : List Byte, a.take 4 = [0x43, 0x43, 0x42, 0x46] → a.length < 12 → readArtifact a = .error .truncated) ∧
  (∀ (s : State) (n : Nat), 4 ≤ n → n < (writeArtifact s).length →
    readArtifact ((writeArtifact s).take n) = .error .truncated) ∧
  (∀ (a : Artifact) (s : State), s.busy = false → s.configured = true → s.bitCount = a.bitCount →
    a.cells.length = a.bitCount.toNat → (∀ j < s.bitCount.toNat, s.bits.get j = false) →
    restore a = .ok (boot a.bitCount a.hashCount ++ restoreWords a) ∧
    ∀ j, (h : j < a.cells.length) → (performAll (restoreWords a) s).bits.get j = a.cells[j]) ∧
  (∀ a : Artifact, a.cells.length ≠ a.bitCount.toNat → restore a = .error .lengthMismatch)
end

