-- ==== Sys2Proof/Laws/State.lean ====
section
/-! SUPPORT. One lemma per field per named update of the state, true by definition: no proof unfolds a record update. -/

namespace Sys2Proof.Machine

variable (s : State)

/-! ### `raise` -/

@[simp] theorem State.raise_params (c : ErrCode) : (s.raise c).params = s.params := rfl
@[simp] theorem State.raise_busy (c : ErrCode) : (s.raise c).busy = s.busy := rfl
@[simp] theorem State.raise_configured (c : ErrCode) : (s.raise c).configured = s.configured := rfl
@[simp] theorem State.raise_result (c : ErrCode) : (s.raise c).result = s.result := rfl
@[simp] theorem State.raise_err (c : ErrCode) : (s.raise c).err = if s.err = .none then c else s.err := rfl
@[simp] theorem State.raise_bitCount (c : ErrCode) : (s.raise c).bitCount = s.bitCount := rfl
@[simp] theorem State.raise_hashCount (c : ErrCode) : (s.raise c).hashCount = s.hashCount := rfl
@[simp] theorem State.raise_itemLen (c : ErrCode) : (s.raise c).itemLen = s.itemLen := rfl
@[simp] theorem State.raise_seed (c : ErrCode) : (s.raise c).seed = s.seed := rfl
@[simp] theorem State.raise_hashOut (c : ErrCode) : (s.raise c).hashOut = s.hashOut := rfl
@[simp] theorem State.raise_h1 (c : ErrCode) : (s.raise c).h1 = s.h1 := rfl
@[simp] theorem State.raise_h2 (c : ErrCode) : (s.raise c).h2 = s.h2 := rfl
@[simp] theorem State.raise_idxOut (c : ErrCode) : (s.raise c).idxOut = s.idxOut := rfl
@[simp] theorem State.raise_bits (c : ErrCode) : (s.raise c).bits = s.bits := rfl
@[simp] theorem State.raise_item (c : ErrCode) : (s.raise c).item = s.item := rfl
@[simp] theorem State.raise_pending (c : ErrCode) : (s.raise c).pending = s.pending := rfl
@[simp] theorem State.raise_host (c : ErrCode) : (s.raise c).host = s.host := rfl
@[simp] theorem State.raise_v (c : ErrCode) : (s.raise c).v = s.v := rfl
@[simp] theorem State.raise_engineDelay (c : ErrCode) : (s.raise c).engineDelay = s.engineDelay := rfl
@[simp] theorem State.raise_schedule (c : ErrCode) : (s.raise c).schedule = s.schedule := rfl
@[simp] theorem State.raise_draws (c : ErrCode) : (s.raise c).draws = s.draws := rfl

/-! ### `complete` -/

@[simp] theorem State.complete_params : (s.complete).params = s.params := rfl
@[simp] theorem State.complete_busy : (s.complete).busy = false := rfl
@[simp] theorem State.complete_configured : (s.complete).configured = s.configured := rfl
@[simp] theorem State.complete_result : (s.complete).result = s.result := rfl
@[simp] theorem State.complete_err : (s.complete).err = s.err := rfl
@[simp] theorem State.complete_bitCount : (s.complete).bitCount = s.bitCount := rfl
@[simp] theorem State.complete_hashCount : (s.complete).hashCount = s.hashCount := rfl
@[simp] theorem State.complete_itemLen : (s.complete).itemLen = s.itemLen := rfl
@[simp] theorem State.complete_seed : (s.complete).seed = s.seed := rfl
@[simp] theorem State.complete_hashOut : (s.complete).hashOut = s.hashOut := rfl
@[simp] theorem State.complete_h1 : (s.complete).h1 = s.h1 := rfl
@[simp] theorem State.complete_h2 : (s.complete).h2 = s.h2 := rfl
@[simp] theorem State.complete_idxOut : (s.complete).idxOut = s.idxOut := rfl
@[simp] theorem State.complete_bits : (s.complete).bits = s.bits := rfl
@[simp] theorem State.complete_item : (s.complete).item = s.item := rfl
@[simp] theorem State.complete_pending : (s.complete).pending = s.pending := rfl
@[simp] theorem State.complete_host : (s.complete).host = s.host := rfl
@[simp] theorem State.complete_v : (s.complete).v = s.v := rfl
@[simp] theorem State.complete_engineDelay : (s.complete).engineDelay = s.engineDelay := rfl
@[simp] theorem State.complete_schedule : (s.complete).schedule = s.schedule := rfl
@[simp] theorem State.complete_draws : (s.complete).draws = s.draws := rfl

/-! ### `abandon` -/

@[simp] theorem State.abandon_params (c : ErrCode) : (s.abandon c).params = s.params := rfl
@[simp] theorem State.abandon_busy (c : ErrCode) : (s.abandon c).busy = false := rfl
@[simp] theorem State.abandon_configured (c : ErrCode) : (s.abandon c).configured = s.configured := rfl
@[simp] theorem State.abandon_result (c : ErrCode) : (s.abandon c).result = s.result := rfl
@[simp] theorem State.abandon_err (c : ErrCode) : (s.abandon c).err = if s.err = .none then c else s.err := rfl
@[simp] theorem State.abandon_bitCount (c : ErrCode) : (s.abandon c).bitCount = s.bitCount := rfl
@[simp] theorem State.abandon_hashCount (c : ErrCode) : (s.abandon c).hashCount = s.hashCount := rfl
@[simp] theorem State.abandon_itemLen (c : ErrCode) : (s.abandon c).itemLen = s.itemLen := rfl
@[simp] theorem State.abandon_seed (c : ErrCode) : (s.abandon c).seed = s.seed := rfl
@[simp] theorem State.abandon_hashOut (c : ErrCode) : (s.abandon c).hashOut = s.hashOut := rfl
@[simp] theorem State.abandon_h1 (c : ErrCode) : (s.abandon c).h1 = s.h1 := rfl
@[simp] theorem State.abandon_h2 (c : ErrCode) : (s.abandon c).h2 = s.h2 := rfl
@[simp] theorem State.abandon_idxOut (c : ErrCode) : (s.abandon c).idxOut = s.idxOut := rfl
@[simp] theorem State.abandon_bits (c : ErrCode) : (s.abandon c).bits = s.bits := rfl
@[simp] theorem State.abandon_item (c : ErrCode) : (s.abandon c).item = s.item := rfl
@[simp] theorem State.abandon_pending (c : ErrCode) : (s.abandon c).pending = s.pending := rfl
@[simp] theorem State.abandon_host (c : ErrCode) : (s.abandon c).host = s.host := rfl
@[simp] theorem State.abandon_v (c : ErrCode) : (s.abandon c).v = s.v := rfl
@[simp] theorem State.abandon_engineDelay (c : ErrCode) : (s.abandon c).engineDelay = s.engineDelay := rfl
@[simp] theorem State.abandon_schedule (c : ErrCode) : (s.abandon c).schedule = s.schedule := rfl
@[simp] theorem State.abandon_draws (c : ErrCode) : (s.abandon c).draws = s.draws := rfl

/-! ### `failed` -/

@[simp] theorem State.failed_params (c : ErrCode) : (s.failed c).params = s.params := rfl
@[simp] theorem State.failed_busy (c : ErrCode) : (s.failed c).busy = false := rfl
@[simp] theorem State.failed_configured (c : ErrCode) : (s.failed c).configured = s.configured := rfl
@[simp] theorem State.failed_result (c : ErrCode) : (s.failed c).result = s.result := rfl
@[simp] theorem State.failed_err (c : ErrCode) : (s.failed c).err = if s.err = .none then c else s.err := rfl
@[simp] theorem State.failed_bitCount (c : ErrCode) : (s.failed c).bitCount = s.bitCount := rfl
@[simp] theorem State.failed_hashCount (c : ErrCode) : (s.failed c).hashCount = s.hashCount := rfl
@[simp] theorem State.failed_itemLen (c : ErrCode) : (s.failed c).itemLen = s.itemLen := rfl
@[simp] theorem State.failed_seed (c : ErrCode) : (s.failed c).seed = s.seed := rfl
@[simp] theorem State.failed_hashOut (c : ErrCode) : (s.failed c).hashOut = s.hashOut := rfl
@[simp] theorem State.failed_h1 (c : ErrCode) : (s.failed c).h1 = s.h1 := rfl
@[simp] theorem State.failed_h2 (c : ErrCode) : (s.failed c).h2 = s.h2 := rfl
@[simp] theorem State.failed_idxOut (c : ErrCode) : (s.failed c).idxOut = s.idxOut := rfl
@[simp] theorem State.failed_bits (c : ErrCode) : (s.failed c).bits = s.bits := rfl
@[simp] theorem State.failed_item (c : ErrCode) : (s.failed c).item = s.item := rfl
@[simp] theorem State.failed_pending (c : ErrCode) : (s.failed c).pending = s.pending := rfl
@[simp] theorem State.failed_host (c : ErrCode) : (s.failed c).host = s.host := rfl
@[simp] theorem State.failed_v (c : ErrCode) : (s.failed c).v = s.v := rfl
@[simp] theorem State.failed_engineDelay (c : ErrCode) : (s.failed c).engineDelay = s.engineDelay := rfl
@[simp] theorem State.failed_schedule (c : ErrCode) : (s.failed c).schedule = s.schedule := rfl
@[simp] theorem State.failed_draws (c : ErrCode) : (s.failed c).draws = s.draws := rfl

/-! ### `issue` -/

@[simp] theorem State.issue_params (c : Word) : (s.issue c).params = s.params := rfl
@[simp] theorem State.issue_busy (c : Word) : (s.issue c).busy = true := rfl
@[simp] theorem State.issue_configured (c : Word) : (s.issue c).configured = s.configured := rfl
@[simp] theorem State.issue_result (c : Word) : (s.issue c).result = s.result := rfl
@[simp] theorem State.issue_err (c : Word) : (s.issue c).err = s.err := rfl
@[simp] theorem State.issue_bitCount (c : Word) : (s.issue c).bitCount = s.bitCount := rfl
@[simp] theorem State.issue_hashCount (c : Word) : (s.issue c).hashCount = s.hashCount := rfl
@[simp] theorem State.issue_itemLen (c : Word) : (s.issue c).itemLen = s.itemLen := rfl
@[simp] theorem State.issue_seed (c : Word) : (s.issue c).seed = s.seed := rfl
@[simp] theorem State.issue_hashOut (c : Word) : (s.issue c).hashOut = s.hashOut := rfl
@[simp] theorem State.issue_h1 (c : Word) : (s.issue c).h1 = s.h1 := rfl
@[simp] theorem State.issue_h2 (c : Word) : (s.issue c).h2 = s.h2 := rfl
@[simp] theorem State.issue_idxOut (c : Word) : (s.issue c).idxOut = s.idxOut := rfl
@[simp] theorem State.issue_bits (c : Word) : (s.issue c).bits = s.bits := rfl
@[simp] theorem State.issue_item (c : Word) : (s.issue c).item = s.item := rfl
@[simp] theorem State.issue_pending (c : Word) : (s.issue c).pending = c := rfl
@[simp] theorem State.issue_host (c : Word) : (s.issue c).host = s.host := rfl
@[simp] theorem State.issue_v (c : Word) : (s.issue c).v = s.v := rfl
@[simp] theorem State.issue_engineDelay (c : Word) : (s.issue c).engineDelay = s.nextDelay.1 := rfl
@[simp] theorem State.issue_schedule (c : Word) : (s.issue c).schedule = s.nextDelay.2.1 := rfl
@[simp] theorem State.issue_draws (c : Word) : (s.issue c).draws = s.nextDelay.2.2 := rfl

/-! ### `inFlight` -/

@[simp] theorem State.inFlight_params (c : Word) : (s.inFlight c).params = s.params := rfl
@[simp] theorem State.inFlight_busy (c : Word) : (s.inFlight c).busy = true := rfl
@[simp] theorem State.inFlight_configured (c : Word) : (s.inFlight c).configured = s.configured := rfl
@[simp] theorem State.inFlight_result (c : Word) : (s.inFlight c).result = s.result := rfl
@[simp] theorem State.inFlight_err (c : Word) : (s.inFlight c).err = s.err := rfl
@[simp] theorem State.inFlight_bitCount (c : Word) : (s.inFlight c).bitCount = s.bitCount := rfl
@[simp] theorem State.inFlight_hashCount (c : Word) : (s.inFlight c).hashCount = s.hashCount := rfl
@[simp] theorem State.inFlight_itemLen (c : Word) : (s.inFlight c).itemLen = s.itemLen := rfl
@[simp] theorem State.inFlight_seed (c : Word) : (s.inFlight c).seed = s.seed := rfl
@[simp] theorem State.inFlight_hashOut (c : Word) : (s.inFlight c).hashOut = s.hashOut := rfl
@[simp] theorem State.inFlight_h1 (c : Word) : (s.inFlight c).h1 = s.h1 := rfl
@[simp] theorem State.inFlight_h2 (c : Word) : (s.inFlight c).h2 = s.h2 := rfl
@[simp] theorem State.inFlight_idxOut (c : Word) : (s.inFlight c).idxOut = s.idxOut := rfl
@[simp] theorem State.inFlight_bits (c : Word) : (s.inFlight c).bits = s.bits := rfl
@[simp] theorem State.inFlight_item (c : Word) : (s.inFlight c).item = s.item := rfl
@[simp] theorem State.inFlight_pending (c : Word) : (s.inFlight c).pending = c := rfl
@[simp] theorem State.inFlight_host (c : Word) : (s.inFlight c).host = s.host := rfl
@[simp] theorem State.inFlight_v (c : Word) : (s.inFlight c).v = s.v := rfl
@[simp] theorem State.inFlight_engineDelay (c : Word) : (s.inFlight c).engineDelay = 0 := rfl
@[simp] theorem State.inFlight_schedule (c : Word) : (s.inFlight c).schedule = s.schedule := rfl
@[simp] theorem State.inFlight_draws (c : Word) : (s.inFlight c).draws = s.draws := rfl

/-! ### `countdown` -/

@[simp] theorem State.countdown_params : (s.countdown).params = s.params := rfl
@[simp] theorem State.countdown_busy : (s.countdown).busy = s.busy := rfl
@[simp] theorem State.countdown_configured : (s.countdown).configured = s.configured := rfl
@[simp] theorem State.countdown_result : (s.countdown).result = s.result := rfl
@[simp] theorem State.countdown_err : (s.countdown).err = s.err := rfl
@[simp] theorem State.countdown_bitCount : (s.countdown).bitCount = s.bitCount := rfl
@[simp] theorem State.countdown_hashCount : (s.countdown).hashCount = s.hashCount := rfl
@[simp] theorem State.countdown_itemLen : (s.countdown).itemLen = s.itemLen := rfl
@[simp] theorem State.countdown_seed : (s.countdown).seed = s.seed := rfl
@[simp] theorem State.countdown_hashOut : (s.countdown).hashOut = s.hashOut := rfl
@[simp] theorem State.countdown_h1 : (s.countdown).h1 = s.h1 := rfl
@[simp] theorem State.countdown_h2 : (s.countdown).h2 = s.h2 := rfl
@[simp] theorem State.countdown_idxOut : (s.countdown).idxOut = s.idxOut := rfl
@[simp] theorem State.countdown_bits : (s.countdown).bits = s.bits := rfl
@[simp] theorem State.countdown_item : (s.countdown).item = s.item := rfl
@[simp] theorem State.countdown_pending : (s.countdown).pending = s.pending := rfl
@[simp] theorem State.countdown_host : (s.countdown).host = s.host := rfl
@[simp] theorem State.countdown_v : (s.countdown).v = s.v := rfl
@[simp] theorem State.countdown_engineDelay : (s.countdown).engineDelay = if s.busy then s.engineDelay - 1 else s.engineDelay := rfl
@[simp] theorem State.countdown_schedule : (s.countdown).schedule = s.schedule := rfl
@[simp] theorem State.countdown_draws : (s.countdown).draws = s.draws := rfl

/-! ### `writePair` -/

@[simp] theorem State.writePair_params (d : List Byte) : (s.writePair d).params = s.params := by unfold State.writePair; rfl
@[simp] theorem State.writePair_busy (d : List Byte) : (s.writePair d).busy = s.busy := by unfold State.writePair; rfl
@[simp] theorem State.writePair_configured (d : List Byte) : (s.writePair d).configured = s.configured := by unfold State.writePair; rfl
@[simp] theorem State.writePair_result (d : List Byte) : (s.writePair d).result = s.result := by unfold State.writePair; rfl
@[simp] theorem State.writePair_err (d : List Byte) : (s.writePair d).err = s.err := by unfold State.writePair; rfl
@[simp] theorem State.writePair_bitCount (d : List Byte) : (s.writePair d).bitCount = s.bitCount := by unfold State.writePair; rfl
@[simp] theorem State.writePair_hashCount (d : List Byte) : (s.writePair d).hashCount = s.hashCount := by unfold State.writePair; rfl
@[simp] theorem State.writePair_itemLen (d : List Byte) : (s.writePair d).itemLen = s.itemLen := by unfold State.writePair; rfl
@[simp] theorem State.writePair_seed (d : List Byte) : (s.writePair d).seed = s.seed := by unfold State.writePair; rfl
@[simp] theorem State.writePair_hashOut (d : List Byte) : (s.writePair d).hashOut = s.hashOut := by unfold State.writePair; rfl
@[simp] theorem State.writePair_h1 (d : List Byte) : (s.writePair d).h1 = s.mh3 d seed1 := by unfold State.writePair; rfl
@[simp] theorem State.writePair_h2 (d : List Byte) : (s.writePair d).h2 = s.mh3 d seed2 := by unfold State.writePair; rfl
@[simp] theorem State.writePair_idxOut (d : List Byte) : (s.writePair d).idxOut = s.idxOut := by unfold State.writePair; rfl
@[simp] theorem State.writePair_bits (d : List Byte) : (s.writePair d).bits = s.bits := by unfold State.writePair; rfl
@[simp] theorem State.writePair_item (d : List Byte) : (s.writePair d).item = s.item := by unfold State.writePair; rfl
@[simp] theorem State.writePair_pending (d : List Byte) : (s.writePair d).pending = s.pending := by unfold State.writePair; rfl
@[simp] theorem State.writePair_host (d : List Byte) : (s.writePair d).host = s.host := by unfold State.writePair; rfl
@[simp] theorem State.writePair_v (d : List Byte) : (s.writePair d).v = s.v := by unfold State.writePair; rfl
@[simp] theorem State.writePair_engineDelay (d : List Byte) : (s.writePair d).engineDelay = s.engineDelay := by unfold State.writePair; rfl
@[simp] theorem State.writePair_schedule (d : List Byte) : (s.writePair d).schedule = s.schedule := by unfold State.writePair; rfl
@[simp] theorem State.writePair_draws (d : List Byte) : (s.writePair d).draws = s.draws := by unfold State.writePair; rfl

/-! ### `insertItem` -/

@[simp] theorem State.insertItem_params (d : List Byte) : (s.insertItem d).params = s.params := by simp [State.insertItem]
@[simp] theorem State.insertItem_busy (d : List Byte) : (s.insertItem d).busy = s.busy := by simp [State.insertItem]
@[simp] theorem State.insertItem_configured (d : List Byte) : (s.insertItem d).configured = s.configured := by simp [State.insertItem]
@[simp] theorem State.insertItem_result (d : List Byte) : (s.insertItem d).result = s.result := by simp [State.insertItem]
@[simp] theorem State.insertItem_err (d : List Byte) : (s.insertItem d).err = s.err := by simp [State.insertItem]
@[simp] theorem State.insertItem_bitCount (d : List Byte) : (s.insertItem d).bitCount = s.bitCount := by simp [State.insertItem]
@[simp] theorem State.insertItem_hashCount (d : List Byte) : (s.insertItem d).hashCount = s.hashCount := by simp [State.insertItem]
@[simp] theorem State.insertItem_itemLen (d : List Byte) : (s.insertItem d).itemLen = s.itemLen := by simp [State.insertItem]
@[simp] theorem State.insertItem_seed (d : List Byte) : (s.insertItem d).seed = s.seed := by simp [State.insertItem]
@[simp] theorem State.insertItem_hashOut (d : List Byte) : (s.insertItem d).hashOut = s.hashOut := by simp [State.insertItem]
@[simp] theorem State.insertItem_h1 (d : List Byte) : (s.insertItem d).h1 = s.mh3 d seed1 := by simp [State.insertItem]
@[simp] theorem State.insertItem_h2 (d : List Byte) : (s.insertItem d).h2 = s.mh3 d seed2 := by simp [State.insertItem]
@[simp] theorem State.insertItem_idxOut (d : List Byte) : (s.insertItem d).idxOut = s.idxOut := by simp [State.insertItem]
@[simp] theorem State.insertItem_bits (d : List Byte) : (s.insertItem d).bits = if s.m = 0 then s.bits else s.bits.setAll (s.itemIndices d) := by simp [State.insertItem]
@[simp] theorem State.insertItem_item (d : List Byte) : (s.insertItem d).item = s.item := by simp [State.insertItem]
@[simp] theorem State.insertItem_pending (d : List Byte) : (s.insertItem d).pending = s.pending := by simp [State.insertItem]
@[simp] theorem State.insertItem_host (d : List Byte) : (s.insertItem d).host = s.host := by simp [State.insertItem]
@[simp] theorem State.insertItem_v (d : List Byte) : (s.insertItem d).v = s.v := by simp [State.insertItem]
@[simp] theorem State.insertItem_engineDelay (d : List Byte) : (s.insertItem d).engineDelay = s.engineDelay := by simp [State.insertItem]
@[simp] theorem State.insertItem_schedule (d : List Byte) : (s.insertItem d).schedule = s.schedule := by simp [State.insertItem]
@[simp] theorem State.insertItem_draws (d : List Byte) : (s.insertItem d).draws = s.draws := by simp [State.insertItem]

/-! ### `queryItem` -/

@[simp] theorem State.queryItem_params (d : List Byte) : (s.queryItem d).params = s.params := by simp [State.queryItem]
@[simp] theorem State.queryItem_busy (d : List Byte) : (s.queryItem d).busy = s.busy := by simp [State.queryItem]
@[simp] theorem State.queryItem_configured (d : List Byte) : (s.queryItem d).configured = s.configured := by simp [State.queryItem]
@[simp] theorem State.queryItem_result (d : List Byte) : (s.queryItem d).result = s.contains d := by simp [State.queryItem]
@[simp] theorem State.queryItem_err (d : List Byte) : (s.queryItem d).err = s.err := by simp [State.queryItem]
@[simp] theorem State.queryItem_bitCount (d : List Byte) : (s.queryItem d).bitCount = s.bitCount := by simp [State.queryItem]
@[simp] theorem State.queryItem_hashCount (d : List Byte) : (s.queryItem d).hashCount = s.hashCount := by simp [State.queryItem]
@[simp] theorem State.queryItem_itemLen (d : List Byte) : (s.queryItem d).itemLen = s.itemLen := by simp [State.queryItem]
@[simp] theorem State.queryItem_seed (d : List Byte) : (s.queryItem d).seed = s.seed := by simp [State.queryItem]
@[simp] theorem State.queryItem_hashOut (d : List Byte) : (s.queryItem d).hashOut = s.hashOut := by simp [State.queryItem]
@[simp] theorem State.queryItem_h1 (d : List Byte) : (s.queryItem d).h1 = s.mh3 d seed1 := by simp [State.queryItem]
@[simp] theorem State.queryItem_h2 (d : List Byte) : (s.queryItem d).h2 = s.mh3 d seed2 := by simp [State.queryItem]
@[simp] theorem State.queryItem_idxOut (d : List Byte) : (s.queryItem d).idxOut = s.idxOut := by simp [State.queryItem]
@[simp] theorem State.queryItem_bits (d : List Byte) : (s.queryItem d).bits = s.bits := by simp [State.queryItem]
@[simp] theorem State.queryItem_item (d : List Byte) : (s.queryItem d).item = s.item := by simp [State.queryItem]
@[simp] theorem State.queryItem_pending (d : List Byte) : (s.queryItem d).pending = s.pending := by simp [State.queryItem]
@[simp] theorem State.queryItem_host (d : List Byte) : (s.queryItem d).host = s.host := by simp [State.queryItem]
@[simp] theorem State.queryItem_v (d : List Byte) : (s.queryItem d).v = s.v := by simp [State.queryItem]
@[simp] theorem State.queryItem_engineDelay (d : List Byte) : (s.queryItem d).engineDelay = s.engineDelay := by simp [State.queryItem]
@[simp] theorem State.queryItem_schedule (d : List Byte) : (s.queryItem d).schedule = s.schedule := by simp [State.queryItem]
@[simp] theorem State.queryItem_draws (d : List Byte) : (s.queryItem d).draws = s.draws := by simp [State.queryItem]

/-! ### `platformReset` -/

@[simp] theorem State.platformReset_params : (s.platformReset).params = s.params := rfl
@[simp] theorem State.platformReset_busy : (s.platformReset).busy = false := rfl
@[simp] theorem State.platformReset_configured : (s.platformReset).configured = false := rfl
@[simp] theorem State.platformReset_result : (s.platformReset).result = false := rfl
@[simp] theorem State.platformReset_err : (s.platformReset).err = .none := rfl
@[simp] theorem State.platformReset_bitCount : (s.platformReset).bitCount = 0 := rfl
@[simp] theorem State.platformReset_hashCount : (s.platformReset).hashCount = 0 := rfl
@[simp] theorem State.platformReset_itemLen : (s.platformReset).itemLen = 0 := rfl
@[simp] theorem State.platformReset_seed : (s.platformReset).seed = 0 := rfl
@[simp] theorem State.platformReset_hashOut : (s.platformReset).hashOut = 0 := rfl
@[simp] theorem State.platformReset_h1 : (s.platformReset).h1 = 0 := rfl
@[simp] theorem State.platformReset_h2 : (s.platformReset).h2 = 0 := rfl
@[simp] theorem State.platformReset_idxOut : (s.platformReset).idxOut = 0 := rfl
@[simp] theorem State.platformReset_bits : (s.platformReset).bits = [] := rfl
@[simp] theorem State.platformReset_item : (s.platformReset).item = [] := rfl
@[simp] theorem State.platformReset_pending : (s.platformReset).pending = 0 := rfl
@[simp] theorem State.platformReset_host : (s.platformReset).host = s.host := rfl
@[simp] theorem State.platformReset_v : (s.platformReset).v = s.v := rfl
@[simp] theorem State.platformReset_engineDelay : (s.platformReset).engineDelay = 0 := rfl
@[simp] theorem State.platformReset_schedule : (s.platformReset).schedule = s.schedule := rfl
@[simp] theorem State.platformReset_draws : (s.platformReset).draws = s.draws := rfl

/-! ### `dropErr` -/

@[simp] theorem State.dropErr_params : (s.dropErr).params = s.params := rfl
@[simp] theorem State.dropErr_busy : (s.dropErr).busy = s.busy := rfl
@[simp] theorem State.dropErr_configured : (s.dropErr).configured = s.configured := rfl
@[simp] theorem State.dropErr_result : (s.dropErr).result = s.result := rfl
@[simp] theorem State.dropErr_err : (s.dropErr).err = .none := rfl
@[simp] theorem State.dropErr_bitCount : (s.dropErr).bitCount = s.bitCount := rfl
@[simp] theorem State.dropErr_hashCount : (s.dropErr).hashCount = s.hashCount := rfl
@[simp] theorem State.dropErr_itemLen : (s.dropErr).itemLen = s.itemLen := rfl
@[simp] theorem State.dropErr_seed : (s.dropErr).seed = s.seed := rfl
@[simp] theorem State.dropErr_hashOut : (s.dropErr).hashOut = s.hashOut := rfl
@[simp] theorem State.dropErr_h1 : (s.dropErr).h1 = s.h1 := rfl
@[simp] theorem State.dropErr_h2 : (s.dropErr).h2 = s.h2 := rfl
@[simp] theorem State.dropErr_idxOut : (s.dropErr).idxOut = s.idxOut := rfl
@[simp] theorem State.dropErr_bits : (s.dropErr).bits = s.bits := rfl
@[simp] theorem State.dropErr_item : (s.dropErr).item = s.item := rfl
@[simp] theorem State.dropErr_pending : (s.dropErr).pending = s.pending := rfl
@[simp] theorem State.dropErr_host : (s.dropErr).host = s.host := rfl
@[simp] theorem State.dropErr_v : (s.dropErr).v = s.v := rfl
@[simp] theorem State.dropErr_engineDelay : (s.dropErr).engineDelay = s.engineDelay := rfl
@[simp] theorem State.dropErr_schedule : (s.dropErr).schedule = s.schedule := rfl
@[simp] theorem State.dropErr_draws : (s.dropErr).draws = s.draws := rfl

/-! ### `dropHostView` -/

@[simp] theorem State.dropHostView_params : (s.dropHostView).params = s.params := rfl
@[simp] theorem State.dropHostView_busy : (s.dropHostView).busy = s.busy := rfl
@[simp] theorem State.dropHostView_configured : (s.dropHostView).configured = s.configured := rfl
@[simp] theorem State.dropHostView_result : (s.dropHostView).result = s.result := rfl
@[simp] theorem State.dropHostView_err : (s.dropHostView).err = .none := rfl
@[simp] theorem State.dropHostView_bitCount : (s.dropHostView).bitCount = s.bitCount := rfl
@[simp] theorem State.dropHostView_hashCount : (s.dropHostView).hashCount = s.hashCount := rfl
@[simp] theorem State.dropHostView_itemLen : (s.dropHostView).itemLen = s.itemLen := rfl
@[simp] theorem State.dropHostView_seed : (s.dropHostView).seed = s.seed := rfl
@[simp] theorem State.dropHostView_hashOut : (s.dropHostView).hashOut = s.hashOut := rfl
@[simp] theorem State.dropHostView_h1 : (s.dropHostView).h1 = s.h1 := rfl
@[simp] theorem State.dropHostView_h2 : (s.dropHostView).h2 = s.h2 := rfl
@[simp] theorem State.dropHostView_idxOut : (s.dropHostView).idxOut = s.idxOut := rfl
@[simp] theorem State.dropHostView_bits : (s.dropHostView).bits = s.bits := rfl
@[simp] theorem State.dropHostView_item : (s.dropHostView).item = s.item := rfl
@[simp] theorem State.dropHostView_pending : (s.dropHostView).pending = s.pending := rfl
@[simp] theorem State.dropHostView_host : (s.dropHostView).host = [] := rfl
@[simp] theorem State.dropHostView_v : (s.dropHostView).v = 0 := rfl
@[simp] theorem State.dropHostView_engineDelay : (s.dropHostView).engineDelay = 0 := rfl
@[simp] theorem State.dropHostView_schedule : (s.dropHostView).schedule = s.schedule := rfl
@[simp] theorem State.dropHostView_draws : (s.dropHostView).draws = s.draws := rfl

/-- The meaning of a failed command, written out: it is `abandon`. -/
theorem State.abandon_eq_failed (c : ErrCode) : s.abandon c = s.failed c := rfl

end Sys2Proof.Machine
end

