-- ==== Sys2Proof/Laws/Memory.lean ====
section
/-! SUPPORT. The laws of the item buffer and the bit array: a read after a write, and that every operation keeps the canonical
form. -/

namespace Sys2Proof.Machine

/-! ### Item buffer -/

/-- A read after a write: the written cell gives the byte written, every other cell is as before. -/
theorem Memory.read_write (m : Memory) (a b : Nat) (x : Byte) :
    (m.write a x).read b = if b = a then some x else m.read b := by
  induction m with
  | nil => simp [Memory.write, Memory.read, eq_comm]
  | cons c m ih =>
    obtain ⟨k, y⟩ := c
    simp only [Memory.write]
    split_ifs with h1 h2 h3 h3 <;> simp_all [Memory.read] <;> grind

theorem Memory.mem_write {m : Memory} {a : Nat} {x : Byte} {c : Host.Cell} (h : c ∈ m.write a x) :
    c.1 = a ∨ c ∈ m := by
  induction m with
  | nil => simp_all [Memory.write]
  | cons d m ih =>
    obtain ⟨k, y⟩ := d
    simp only [Memory.write] at h
    split_ifs at h <;> simp_all <;> grind

/-- A write keeps the canonical form. -/
theorem Memory.wf_write {m : Memory} (h : m.wf) (a : Nat) (x : Byte) : (m.write a x).wf := by
  induction m with
  | nil => simp [Memory.write, Memory.wf]
  | cons d m ih =>
    obtain ⟨k, y⟩ := d
    simp only [Memory.wf, List.pairwise_cons] at h ih ⊢
    simp only [Memory.write]
    split_ifs with h1 h2
    · simp only [List.pairwise_cons, List.mem_cons]
      refine ⟨?_, h⟩
      rintro c (rfl | hc)
      · exact h1
      · exact lt_trans h1 (h.1 c hc)
    · simp only [List.pairwise_cons]; exact ⟨fun c hc => h2 ▸ h.1 c hc, h.2⟩
    · simp only [List.pairwise_cons]
      refine ⟨fun c hc => ?_, ih h.2⟩
      rcases Memory.mem_write hc with e | hc
      · simp only [e]; omega
      · exact h.1 c hc

/-- A 32-bit write keeps the canonical form. -/
theorem Memory.wf_writeWord {m : Memory} (h : m.wf) (a : Nat) (v : Word) : (m.writeWord a v).wf :=
  wf_write (wf_write (wf_write (wf_write h _ _) _ _) _ _) _ _

/-- A 32-bit write deposits its four bytes, least significant first, and nothing else (R53). -/
theorem Memory.read_writeWord (m : Memory) (a b : Nat) (v : Word) :
    (m.writeWord a v).read b =
      if a ≤ b ∧ b < a + 4 then some (v.extractLsb' (8 * (b - a)) 8) else m.read b := by
  simp only [Memory.writeWord, Memory.read_write]
  by_cases h : a ≤ b ∧ b < a + 4
  · obtain ⟨i, rfl⟩ := Nat.exists_eq_add_of_le h.1
    have : i < 4 := by omega
    interval_cases i <;> simp
  · rw [if_neg h]
    split_ifs <;> first | omega | rfl

theorem Memory.mem_writeWord {m : Memory} {a : Nat} {v : Word} {c : Host.Cell} (h : c ∈ m.writeWord a v) :
    (a ≤ c.1 ∧ c.1 < a + 4) ∨ c ∈ m := by
  simp only [Memory.writeWord] at h
  rcases Memory.mem_write h with e | h
  · omega
  rcases Memory.mem_write h with e | h
  · omega
  rcases Memory.mem_write h with e | h
  · omega
  rcases Memory.mem_write h with e | h
  · omega
  · exact .inr h

/-- Reading a range whose cells are all written gives their bytes, in index order. -/
theorem Memory.readRange_written {m : Memory} {a n : Nat} (h : ∀ i < n, (m.read (a + i)).isSome = true) :
    m.readRange a n = .ok ((List.range n).map (fun i => (m.read (a + i)).getD 0)) := by
  induction n generalizing a with
  | zero => rfl
  | succ n ih =>
    obtain ⟨b, hb⟩ := Option.isSome_iff_exists.mp (h 0 (by omega))
    have h' : ∀ i < n, (m.read (a + 1 + i)).isSome = true := fun i hi => by
      have := h (i + 1) (by omega); rwa [show a + (i + 1) = a + 1 + i by omega] at this
    simp only [Nat.add_zero] at hb
    simp only [Memory.readRange, hb, ih h', List.range_succ_eq_map, List.map_cons, List.map_map, Nat.add_zero,
      Option.getD_some, Except.ok.injEq, List.cons.injEq, true_and]
    refine List.map_congr_left fun i _ => ?_
    simp [Function.comp, show a + 1 + i = a + (i + 1) by omega]

/-- Reading a range stops at the first unwritten cell. -/
theorem Memory.readRange_error {m : Memory} {a n c : Nat} (h : m.readRange a n = .error c) :
    a ≤ c ∧ c < a + n ∧ m.read c = none ∧ ∀ i, a ≤ i → i < c → (m.read i).isSome = true := by
  induction n generalizing a with
  | zero => simp [Memory.readRange] at h
  | succ n ih =>
    simp only [Memory.readRange] at h
    cases hb : m.read a with
    | none =>
      simp only [hb, Except.error.injEq] at h
      subst h
      exact ⟨le_rfl, by omega, hb, fun i _ _ => by omega⟩
    | some b =>
      simp only [hb] at h
      cases hr : m.readRange (a + 1) n with
      | ok d => simp [hr] at h
      | error e =>
        simp only [hr, Except.error.injEq] at h
        subst h
        obtain ⟨h1, h2, h3, h4⟩ := ih hr
        refine ⟨by omega, by omega, h3, fun i hi hc => ?_⟩
        rcases Nat.eq_or_lt_of_le hi with rfl | hi
        · simp [hb]
        · exact h4 i (by omega) hc

/-- A range reads as a list of bytes only where every cell is written. -/
theorem Memory.readRange_ok {m : Memory} {a n : Nat} {d : List Byte} (h : m.readRange a n = .ok d) :
    ∀ i < n, (m.read (a + i)).isSome = true := by
  intro i hi
  by_contra hn
  have hx : ∃ j, j < n ∧ ¬ (m.read (a + j)).isSome = true := ⟨i, hi, hn⟩
  induction n generalizing a i d with
  | zero => omega
  | succ n ih =>
    simp only [Memory.readRange] at h
    cases hb : m.read a with
    | none => simp [hb] at h
    | some b =>
      simp only [hb] at h
      cases hr : m.readRange (a + 1) n with
      | error e => simp [hr] at h
      | ok d' =>
        rcases i with _ | i
        · simp [hb] at hn
        · have e : a + (i + 1) = a + 1 + i := by omega
          rw [e] at hn
          exact ih hr i (by omega) hn ⟨i, by omega, hn⟩

/-! ### Bit array -/

@[simp] theorem BitArray.get_iff (b : BitArray) (j : Nat) : b.get j = true ↔ j ∈ b := by simp [BitArray.get]

theorem BitArray.mem_set (b : BitArray) (j i : Nat) : i ∈ b.set j ↔ i = j ∨ i ∈ b := by
  induction b with
  | nil => simp [BitArray.set]
  | cons k b ih =>
    simp only [BitArray.set]
    split_ifs <;> simp_all
    grind

theorem BitArray.mem_setAll (b : BitArray) (l : List Nat) (i : Nat) : i ∈ b.setAll l ↔ i ∈ l ∨ i ∈ b := by
  induction l generalizing b with
  | nil => simp [BitArray.setAll]
  | cons j l ih =>
    have := ih (b.set j)
    simp only [BitArray.setAll, List.foldl_cons] at this ⊢
    rw [this, BitArray.mem_set]; simp [or_assoc, or_left_comm]

/-- Setting cells: the listed cells hold 1, every other cell is as before. -/
theorem BitArray.get_setAll (b : BitArray) (l : List Nat) (i : Nat) :
    (b.setAll l).get i = (decide (i ∈ l) || b.get i) := by
  rw [Bool.eq_iff_iff]; simp [BitArray.mem_setAll]

/-- Clearing below `m`: cells below `m` hold 0, every other cell is as before. -/
theorem BitArray.get_clearBelow (b : BitArray) (m i : Nat) :
    (b.clearBelow m).get i = (decide (m ≤ i) && b.get i) := by
  rw [Bool.eq_iff_iff]; simp [BitArray.clearBelow, and_comm]

theorem BitArray.testAll_iff (b : BitArray) (l : List Nat) : b.testAll l = true ↔ ∀ i ∈ l, i ∈ b := by
  simp [BitArray.testAll]

theorem BitArray.wf_set {b : BitArray} (h : b.wf) (j : Nat) : (b.set j).wf := by
  induction b with
  | nil => simp [BitArray.set, BitArray.wf]
  | cons k b ih =>
    simp only [BitArray.wf, List.pairwise_cons] at h ih ⊢
    simp only [BitArray.set]
    split_ifs with h1 h2
    · simp only [List.pairwise_cons, List.mem_cons]
      refine ⟨?_, h⟩
      rintro c (rfl | hc)
      · exact h1
      · exact lt_trans h1 (h.1 c hc)
    · simp only [List.pairwise_cons]; exact h
    · simp only [List.pairwise_cons]
      refine ⟨fun c hc => ?_, ih h.2⟩
      rcases (BitArray.mem_set b j c).mp hc with e | hc
      · omega
      · exact h.1 c hc

/-- Setting cells keeps the canonical form. -/
theorem BitArray.wf_setAll {b : BitArray} (h : b.wf) (l : List Nat) : (b.setAll l).wf := by
  induction l generalizing b with
  | nil => exact h
  | cons j l ih => exact ih (BitArray.wf_set h j)

/-- Clearing cells keeps the canonical form. -/
theorem BitArray.wf_clearBelow {b : BitArray} (h : b.wf) (m : Nat) : (b.clearBelow m).wf := List.Pairwise.filter _ h

/-- Two canonical bit arrays with the same cells are equal. -/
theorem BitArray.eq_of_get {b c : BitArray} (hb : b.wf) (hc : c.wf) (h : ∀ j, b.get j = c.get j) : b = c := by
  refine List.Perm.eq_of_pairwise (le := (· < ·)) ?_ hb hc ?_
  · intro x y _ _ h1 h2; omega
  · refine (List.perm_ext_iff_of_nodup (hb.imp fun h => Nat.ne_of_lt h) (hc.imp fun h => Nat.ne_of_lt h)).mpr fun j => ?_
    rw [← BitArray.get_iff, ← BitArray.get_iff, h j]

/-- Bit `31-j` of a window word is cell `32w + j`, below `m` (R160). -/
theorem BitArray.getLsbD_word (b : BitArray) (m w j : Nat) (hj : j < 32) :
    (b.word m w).getLsbD (31 - j) = (decide (32 * w + j < m) && b.get (32 * w + j)) := by
  simp only [BitArray.word]
  rw [BitVec.getLsbD_eq_getMsbD]
  simp [show 31 - j < 32 by omega, show 32 - 1 - (31 - j) = j by omega, BitVec.getMsbD_ofFnBE, hj]

theorem mem_windowCells (m w : Nat) (v : Word) (i : Nat) :
    i ∈ windowCells m w v ↔ ∃ j < 32, i = 32 * w + j ∧ i < m ∧ v.getLsbD (31 - j) = true := by
  simp only [windowCells, List.mem_map, List.mem_filter, List.mem_range, Bool.and_eq_true, decide_eq_true_eq]
  constructor
  · rintro ⟨j, ⟨h1, h2, h3⟩, rfl⟩; exact ⟨j, h1, rfl, h2, h3⟩
  · rintro ⟨j, h1, rfl, h2, h3⟩; exact ⟨j, ⟨h1, h2, h3⟩, rfl⟩

/-- The cells after a window write (R161). -/
theorem BitArray.get_setAll_windowCells (b : BitArray) (m w : Nat) (v : Word) (i : Nat) :
    (b.setAll (windowCells m w v)).get i =
      (b.get i || (decide (i / 32 = w) && decide (i < m) && v.getLsbD (31 - i % 32))) := by
  rw [BitArray.get_setAll, Bool.or_comm]; congr 1
  rw [Bool.eq_iff_iff, decide_eq_true_eq, mem_windowCells]
  simp only [Bool.and_eq_true, decide_eq_true_eq]
  constructor
  · rintro ⟨j, hj, rfl, h1, h2⟩
    exact ⟨⟨by omega, h1⟩, by rwa [show (32 * w + j) % 32 = j by omega]⟩
  · rintro ⟨⟨h1, h2⟩, h3⟩
    exact ⟨i % 32, by omega, by omega, h2, h3⟩

end Sys2Proof.Machine
end

