-- ==== Sys2Proof/Laws/Exec.lean ====
section
/-! SUPPORT. What the shared operations of the commands can do, each said once: fetching the item, the configured precondition,
and for every command the next states it answers. -/

namespace Sys2Proof.Machine

/-! ### The item operand -/

/-- Where the item can be read, the operand is the item (R113). -/
theorem itemOperand_ready {s : State} (h : s.ItemReady) : itemOperand s = .item s.theItem := by
  have := Memory.readRange_written (m := s.item) (a := 0) (n := s.itemLen.toNat) (by simpa using h.2)
  simp [itemOperand, h.1, this, State.theItem]

/-- An item that can be fetched was ready, and is the item (R113). -/
theorem itemOperand_item {s : State} {d : List Byte} (h : itemOperand s = .item d) : s.ItemReady ∧ d = s.theItem := by
  have hr : s.ItemReady := by
    unfold itemOperand at h
    split_ifs at h with hl
    refine ⟨hl, fun a ha => ?_⟩
    cases hr : s.item.readRange 0 s.itemLen.toNat with
    | ok d => simpa using Memory.readRange_ok hr a ha
    | error e => simp [hr] at h
  refine ⟨hr, ?_⟩
  rw [itemOperand_ready hr] at h
  exact (ItemOperand.item.inj h).symm

/-- An item longer than ITEM_MAX is refused (R113). -/
theorem itemOperand_tooLong {s : State} (h : s.params.itemMax < s.itemLen.toNat) : itemOperand s = .tooLong := by
  simp [itemOperand, Nat.not_le.mpr h]

/-- The modelling fault names the first unwritten cell of an item whose length is legal (R182). -/
theorem itemOperand_unwritten {s : State} {a : Nat} (h : itemOperand s = .unwritten a) :
    s.itemLen.toNat ≤ s.params.itemMax ∧ a < s.itemLen.toNat ∧ s.item.read a = none ∧
      ∀ i < a, (s.item.read i).isSome = true := by
  unfold itemOperand at h
  split_ifs at h with hl
  cases hr : s.item.readRange 0 s.itemLen.toNat with
  | ok d => simp [hr] at h
  | error e =>
    simp only [hr, ItemOperand.unwritten.injEq] at h
    subst h
    obtain ⟨-, h2, h3, h4⟩ := Memory.readRange_error hr
    exact ⟨hl, by omega, h3, fun i hi => h4 i (by omega) hi⟩

/-- A command that reads the item, where the item can be read: its effect, and the end of the command. -/
theorem withItem_ready {s : State} (h : s.ItemReady) (e : List Byte → State) :
    withItem s e = .next (e s.theItem).complete := by
  simp [withItem, itemOperand_ready h]

/-- A command that reads the item, where the item is too long. -/
theorem withItem_tooLong {s : State} (h : s.params.itemMax < s.itemLen.toNat) (e : List Byte → State) :
    withItem s e = .next (s.failed .itemLen) := by
  simp [withItem, itemOperand_tooLong h, State.abandon_eq_failed]

/-- The next states of a command that reads the item. -/
theorem withItem_next {s t : State} {e : List Byte → State} (h : withItem s e = .next t) :
    (s.ItemReady ∧ t = (e s.theItem).complete) ∨ (s.params.itemMax < s.itemLen.toNat ∧ t = s.failed .itemLen) := by
  unfold withItem at h
  cases ho : itemOperand s with
  | item d =>
    simp only [ho, Host.Outcome.next.injEq] at h
    obtain ⟨hr, rfl⟩ := itemOperand_item ho
    exact .inl ⟨hr, h.symm⟩
  | tooLong =>
    simp only [ho, Host.Outcome.next.injEq] at h
    refine .inr ⟨?_, h.symm⟩
    by_contra hn
    unfold itemOperand at ho
    rw [if_pos (Nat.not_lt.mp hn)] at ho
    cases hr : s.item.readRange 0 s.itemLen.toNat <;> simp [hr] at ho
  | unwritten a => simp [ho] at h

/-- A configured filter runs the command (R141). -/
theorem whenConfigured_true {s : State} (h : s.configured = true) (c : StepResult) : whenConfigured s c = c := by
  simp [whenConfigured, h]

/-- An unconfigured one refuses it (R141). -/
theorem whenConfigured_false {s : State} (h : s.configured = false) (c : StepResult) :
    whenConfigured s c = .next (s.failed .notConfigured) := by
  simp [whenConfigured, h, State.abandon_eq_failed]

/-! ### The next states of each command -/

theorem execNop_next {s t : State} (h : execNop s = .next t) : t = s.complete := by
  simpa [execNop] using h.symm

theorem execConfig_next {s t : State} (h : execConfig s = .next t) :
    (s.configured = true ∧ t = s.failed .configLocked) ∨
    (s.configured = false ∧ s.m ≤ s.params.bitCountMax ∧
      t = ({ s with bits := s.bits.clearBelow s.m, configured := true } : State).complete) ∨
    (s.configured = false ∧ s.params.bitCountMax < s.m ∧ t = s.failed .badConfig) := by
  unfold execConfig at h
  split_ifs at h with h1 h2 <;> simp only [Host.Outcome.next.injEq] at h <;> subst h
  · exact .inl ⟨h1, rfl⟩
  · exact .inr (.inl ⟨by simpa using h1, h2, rfl⟩)
  · exact .inr (.inr ⟨by simpa using h1, by omega, rfl⟩)

theorem execHash_next {s t : State} (h : execHash s = .next t) :
    (s.ItemReady ∧ t = ({ s with hashOut := s.mh3 s.theItem s.seed } : State).complete) ∨
    (s.params.itemMax < s.itemLen.toNat ∧ t = s.failed .itemLen) := withItem_next h

theorem execHashPair_next {s t : State} (h : execHashPair s = .next t) :
    (s.ItemReady ∧ t = (s.writePair s.theItem).complete) ∨
    (s.params.itemMax < s.itemLen.toNat ∧ t = s.failed .itemLen) := withItem_next h

theorem execInsert_next {s t : State} (h : execInsert s = .next t) :
    (s.configured = true ∧ s.ItemReady ∧ t = (s.insertItem s.theItem).complete) ∨
    (s.configured = false ∧ t = s.failed .notConfigured) ∨
    (s.configured = true ∧ s.params.itemMax < s.itemLen.toNat ∧ t = s.failed .itemLen) := by
  unfold execInsert at h
  cases hc : s.configured with
  | true =>
    rw [whenConfigured_true hc] at h
    rcases withItem_next h with ⟨h1, h2⟩ | ⟨h1, h2⟩
    · exact .inl ⟨rfl, h1, h2⟩
    · exact .inr (.inr ⟨rfl, h1, h2⟩)
  | false => rw [whenConfigured_false hc] at h; exact .inr (.inl ⟨rfl, (Host.Outcome.next.inj h).symm⟩)

theorem execQuery_next {s t : State} (h : execQuery s = .next t) :
    (s.configured = true ∧ s.ItemReady ∧ t = (s.queryItem s.theItem).complete) ∨
    (s.configured = false ∧ t = s.failed .notConfigured) ∨
    (s.configured = true ∧ s.params.itemMax < s.itemLen.toNat ∧ t = s.failed .itemLen) := by
  unfold execQuery at h
  cases hc : s.configured with
  | true =>
    rw [whenConfigured_true hc] at h
    rcases withItem_next h with ⟨h1, h2⟩ | ⟨h1, h2⟩
    · exact .inl ⟨rfl, h1, h2⟩
    · exact .inr (.inr ⟨rfl, h1, h2⟩)
  | false => rw [whenConfigured_false hc] at h; exact .inr (.inl ⟨rfl, (Host.Outcome.next.inj h).symm⟩)

theorem execIndex_next {i : Nat} {s t : State} (h : execIndex i s = .next t) :
    (s.configured = true ∧ s.m ≠ 0 ∧
      t = ({ s with idxOut := BitVec.ofNat 32 (idx s.params.idxMode s.h1 s.h2 i s.m) } : State).complete) ∨
    (s.configured = false ∧ t = s.failed .notConfigured) ∨
    (s.configured = true ∧ s.m = 0 ∧ t = s.failed .zeroModulus) := by
  unfold execIndex at h
  by_cases hc : s.configured = true
  · rw [whenConfigured_true hc] at h
    split_ifs at h with hm <;> simp only [Host.Outcome.next.injEq] at h
    · exact .inr (.inr ⟨hc, hm, h.symm⟩)
    · exact .inl ⟨hc, hm, h.symm⟩
  · rw [Bool.not_eq_true] at hc
    rw [whenConfigured_false hc] at h
    exact .inr (.inl ⟨hc, (Host.Outcome.next.inj h).symm⟩)

/-! ### The index of a filter -/

/-- An index names a bit of the filter (R131). -/
theorem idx_lt (mode : IdxMode) (h1 h2 : Word) (i : Nat) {m : Nat} (hm : m ≠ 0) : idx mode h1 h2 i m < m :=
  Nat.mod_lt _ (Nat.pos_of_ne_zero hm)

/-- Every entry of an item's index list names a bit of the filter (R131, R132). -/
theorem itemIndices_lt {s : State} {d : List Byte} (hm : s.m ≠ 0) : ∀ j ∈ s.itemIndices d, j < s.m := by
  intro j hj
  simp only [State.itemIndices, indexList, List.mem_map] at hj
  obtain ⟨i, -, rfl⟩ := hj
  exact idx_lt _ _ _ _ hm

/-- A cell after the effect of INSERT: as before, or set because the item indexes it (R145). -/
theorem get_insertItem (s : State) (d : List Byte) (j : Nat) :
    (s.insertItem d).bits.get j = (s.bits.get j || decide (s.m ≠ 0 ∧ j ∈ s.itemIndices d)) := by
  simp only [State.insertItem_bits]
  split_ifs with h <;> simp [h, BitArray.get_setAll, Bool.or_comm]

end Sys2Proof.Machine
end

