-- ==== Sys2Proof/Laws/Bus.lean ====
section
/-! SUPPORT. What a host access, an event and a step can do, each said once. -/

namespace Sys2Proof.Machine

/-! ### The address map -/

/-- A register sits at its offset (register map of 10_state.md). -/
theorem mapAccess_reg (p : Params) (r : Reg) : mapAccess p r.offset 4 = some (.reg r) := by cases r <;> rfl

/-- A register is named by its own offset and a 32-bit access only. -/
theorem mapAccess_eq_reg {p : Params} {off : Word} {n : Nat} {r : Reg} (h : mapAccess p off n = some (.reg r)) :
    off = r.offset ∧ n = 4 := by
  unfold mapAccess at h
  dsimp only at h
  split_ifs at h with h1 h2 h3
  · unfold mapRegister at h
    split_ifs at h with h4
    refine ⟨?_, h4.1⟩
    have key : ∀ q : Fin 64, Reg.ofIndex q.val = some r → q.val * 4 = r.offset.toNat := by
      cases r <;> decide
    have hr : Reg.ofIndex (off.toNat / 4) = some r := by
      cases hq : Reg.ofIndex (off.toNat / 4) <;> simp_all
    have := key ⟨off.toNat / 4, by omega⟩ hr
    apply BitVec.eq_of_toNat_eq
    simp only at this
    omega
  · unfold mapItem at h; split_ifs at h <;> simp at h
  · unfold mapWindow at h; split_ifs at h; simp at h

/-- Item byte `a` sits at `0x800 + a` (R53). -/
theorem mapAccess_itemByte {p : Params} (hp : p.Valid) {a : Nat} (ha : a < p.itemMax) :
    mapAccess p (BitVec.ofNat 32 (0x800 + a)) 1 = some (.itemByte a) := by
  obtain ⟨-, ⟨-, -, h3⟩, -⟩ := hp
  have e : (BitVec.ofNat 32 (0x800 + a)).toNat = 0x800 + a := by simp; omega
  simp only [mapAccess, e]
  rw [if_neg (by omega), if_pos (by omega), show 0x800 + a - 0x800 = a by omega]
  simp [mapItem, ha]

/-- Item word `a`, a multiple of 4, sits at `0x800 + a` (R53). -/
theorem mapAccess_itemWord {p : Params} (hp : p.Valid) {a : Nat} (ha : a < p.itemMax) (h4 : a % 4 = 0) :
    mapAccess p (BitVec.ofNat 32 (0x800 + a)) 4 = some (.itemWord a) := by
  obtain ⟨-, ⟨h1, -, h3⟩, -⟩ := hp
  have e : (BitVec.ofNat 32 (0x800 + a)).toNat = 0x800 + a := by simp; omega
  simp only [mapAccess, e]
  rw [if_neg (by omega), if_pos (by omega), show 0x800 + a - 0x800 = a by omega]
  have : a + 3 < p.itemMax := by omega
  simp [mapItem, h4, this]

/-- Word `w` of the bit array sits at `0x2000_0000 + 4w` (R54). -/
theorem mapAccess_window (p : Params) {w : Nat} (hw : w < 2 ^ 27) :
    mapAccess p (BitVec.ofNat 32 (0x20000000 + 4 * w)) 4 = some (.windowWord w) := by
  have e : (BitVec.ofNat 32 (0x20000000 + 4 * w)).toNat = 0x20000000 + 4 * w := by simp; omega
  simp only [mapAccess, e]
  rw [if_neg (by omega), if_neg (by omega), if_pos (by omega)]
  rw [show 0x20000000 + 4 * w - 0x20000000 = 4 * w by omega]
  simp [mapWindow]

/-- What a mapped item access names lies within the item buffer. -/
theorem mapAccess_item_lt {p : Params} {off : Word} {n a : Nat} :
    (mapAccess p off n = some (.itemByte a) → a < p.itemMax) ∧
    (mapAccess p off n = some (.itemWord a) → a + 3 < p.itemMax) := by
  constructor <;> intro h <;> unfold mapAccess at h <;> dsimp only at h <;> split_ifs at h
  · unfold mapRegister at h; split_ifs at h; cases hq : Reg.ofIndex (off.toNat / 4) <;> simp_all
  · unfold mapItem at h; split_ifs at h with h1 <;> simp at h; omega
  · unfold mapWindow at h; split_ifs at h; simp at h
  · unfold mapRegister at h; split_ifs at h; cases hq : Reg.ofIndex (off.toNat / 4) <;> simp_all
  · unfold mapItem at h; split_ifs at h with h1 h2 <;> simp at h; omega
  · unfold mapWindow at h; split_ifs at h; simp at h

/-- The map agrees with the legal accesses spelt out (R51, R52, R55). -/
theorem mapAccess_isSome_iff {p : Params} (hp : p.Valid) (off : Word) (n : Nat) :
    (mapAccess p off n).isSome = true ↔ LegalAccess p off n := by
  obtain ⟨-, ⟨hp1, -, hp3⟩, -⟩ := hp
  have key : ∀ q : Fin 64, (Reg.ofIndex q.val).isSome = true ↔ q.val < 12 := by decide
  unfold mapAccess LegalAccess
  dsimp only
  split_ifs with h1 h2 h3
  · have := key ⟨off.toNat / 4, by omega⟩
    simp only at this
    unfold mapRegister
    split_ifs with h4
    · rw [Option.isSome_map, this]; omega
    · simp only [Option.isSome_none, Bool.false_eq_true, false_iff]; omega
  · unfold mapItem; split_ifs <;> simp <;> omega
  · unfold mapWindow; split_ifs <;> simp <;> omega
  · simp only [Option.isSome_none, Bool.false_eq_true, false_iff]; omega

/-! ### Accesses -/

/-- A read whose target and checks are known. -/
theorem hostRead_ok {off : Word} {n : Nat} {s : State} {t : Target} (hm : mapAccess s.params off n = some t)
    (hb : s.busy = false ∨ t.readableWhileBusy = true) (hr : readRule t s = .ok ()) :
    hostRead off n s = { s with v := (readTarget t s).1, draws := (readTarget t s).2 } := by
  have : (s.busy && !t.readableWhileBusy) = false := by rcases hb with h | h <;> simp [h]
  simp [hostRead, checkRead, hm, this, hr]

/-- A write whose target and checks are known. -/
theorem hostWrite_ok {off : Word} {n : Nat} {v : Word} {s : State} {t : Target}
    (hm : mapAccess s.params off n = some t) (hb : s.busy = false) (hr : writeRule t s = .ok ()) :
    hostWrite off n v s = writeTarget t v s := by
  simp [hostWrite, checkWrite, hm, hb, hr]

/-- A register read by its offset: its value, at any time for ID, VERSION and STATUS (R57, R58). -/
theorem hostRead_reg {r : Reg} {s : State} (hb : s.busy = false ∨ r.readableWhileBusy = true) :
    hostRead r.offset 4 s = { s with v := readReg r s } :=
  hostRead_ok (mapAccess_reg s.params r) hb rfl

/-- A register write by its offset while no command is in flight: the register's own rule, then its effect (R57). -/
theorem hostWrite_reg {r : Reg} {v : Word} {s : State} (hb : s.busy = false) :
    hostWrite r.offset 4 v s =
      if r.readOnly then s.raise .badAccess
      else if r.lockedByConfig && s.configured then s.raise .configLocked
      else writeReg r v s := by
  simp only [hostWrite, checkWrite, mapAccess_reg, hb, writeRule]
  split_ifs <;> first | rfl | contradiction

/-- A bus read either fails, and then records its error and returns 0, or returns its target's value (R57). -/
theorem hostRead_cases (off : Word) (n : Nat) (s : State) :
    (∃ c, checkRead off n s = .error c ∧ hostRead off n s = { s.raise c with v := 0 }) ∨
    (∃ t, checkRead off n s = .ok t ∧
      hostRead off n s = { s with v := (readTarget t s).1, draws := (readTarget t s).2 }) := by
  cases h : checkRead off n s with
  | error c => exact .inl ⟨c, rfl, by simp [hostRead, h]⟩
  | ok t => exact .inr ⟨t, rfl, by simp [hostRead, h]⟩

/-- A bus write either fails, and then records its error, or writes its target (R57). -/
theorem hostWrite_cases (off : Word) (n : Nat) (v : Word) (s : State) :
    (∃ c, checkWrite off n s = .error c ∧ hostWrite off n v s = s.raise c) ∨
    (∃ t, checkWrite off n s = .ok t ∧ hostWrite off n v s = writeTarget t v s) := by
  cases h : checkWrite off n s with
  | error c => exact .inl ⟨c, rfl, by simp [hostWrite, h]⟩
  | ok t => exact .inr ⟨t, rfl, by simp [hostWrite, h]⟩

/-- A write that passes its checks is mapped, comes while no command is in flight, and meets its target's rule (R57, R58). -/
theorem checkWrite_ok {off : Word} {n : Nat} {s : State} {t : Target} (h : checkWrite off n s = .ok t) :
    mapAccess s.params off n = some t ∧ s.busy = false ∧ writeRule t s = .ok () := by
  unfold checkWrite at h
  cases hm : mapAccess s.params off n with
  | none => simp [hm] at h
  | some u =>
    simp only [hm] at h
    split_ifs at h with hb
    cases hr : writeRule u s with
    | error c => simp [hr] at h
    | ok x =>
      simp only [hr, Except.ok.injEq] at h
      subst h
      exact ⟨rfl, by simpa using hb, by simpa using hr⟩

/-- A read that passes its checks is mapped, allowed by the busy rule, and meets its target's rule (R57, R58). -/
theorem checkRead_ok {off : Word} {n : Nat} {s : State} {t : Target} (h : checkRead off n s = .ok t) :
    mapAccess s.params off n = some t ∧ (s.busy = true → t.readableWhileBusy = true) ∧ readRule t s = .ok () := by
  unfold checkRead at h
  cases hm : mapAccess s.params off n with
  | none => simp [hm] at h
  | some u =>
    simp only [hm] at h
    split_ifs at h with hb
    cases hr : readRule u s with
    | error c => simp [hr] at h
    | ok x =>
      simp only [hr, Except.ok.injEq] at h
      subst h
      refine ⟨rfl, fun hbusy => ?_, by simpa using hr⟩
      simpa [hbusy] using hb

/-- The moves of the machine: the engine's step, the host's next event, or idling. -/
theorem step_cases (s : State) :
    (engineTurn s = true ∧ step s = engineStep s) ∨
    (engineTurn s = false ∧ s.host = [] ∧ step s = .next s) ∨
    (engineTurn s = false ∧ ∃ op rest, s.host = op :: rest ∧ step s = .next (hostMove op rest s)) := by
  unfold step nextMove
  cases ht : engineTurn s with
  | true => simp
  | false => cases hh : s.host <;> simp

/-- The engine's step: the decoded command's meaning, or ILLEGAL_CMD (R80). -/
theorem engineStep_cases (s : State) :
    (∃ i, decode s.pending = .ok i ∧ engineStep s = exec i s) ∨
    (∃ e, decode s.pending = .error e ∧ engineStep s = .next (s.failed .illegalCmd)) := by
  unfold engineStep
  cases h : decode s.pending with
  | ok i => exact .inl ⟨i, rfl, rfl⟩
  | error e => exact .inr ⟨e, rfl, rfl⟩

/-- A run of no steps. -/
theorem run_zero (s : State) : Sys2Proof.core.run 0 s = .next s := rfl

/-- A run of one step more answers a next state through the state after its first step. -/
theorem run_succ_next {n : Nat} {s t : State} (h : Sys2Proof.core.run (n + 1) s = .next t) :
    ∃ u, step s = .next u ∧ Sys2Proof.core.run n u = .next t := by
  simp only [Host.Core.run] at h
  split at h
  · exact ⟨_, by assumption, h⟩
  · cases h
  · cases h

/-- A first step that answers a next state, followed by a run. -/
theorem run_succ_of_step {n : Nat} {s u : State} (h : step s = .next u) :
    Sys2Proof.core.run (n + 1) s = Sys2Proof.core.run n u := by
  have e : Sys2Proof.core.step s = .next u := h
  simp only [Host.Core.run, e]

/-- What follows an event of the host's program was in it. -/
theorem hostAfter_subset {op : HostOp} {rest : List HostOp} {v : Word} {x : HostOp} (h : x ∈ hostAfter op rest v) :
    x ∈ op :: rest := by
  cases op with
  | poll =>
    simp only [hostAfter] at h
    split_ifs at h
    · exact h
    · exact List.mem_cons_of_mem _ h
  | read off n => exact List.mem_cons_of_mem _ h
  | write off n v => exact List.mem_cons_of_mem _ h
  | platformReset => exact List.mem_cons_of_mem _ h

/-- It is the engine's turn only while a command is in flight. -/
theorem engineTurn_busy {s : State} (h : engineTurn s = true) : s.busy = true := by
  simp only [engineTurn, Bool.and_eq_true] at h; exact h.1

/-- Where it is not the engine's turn and no host event is left, a step changes nothing. -/
theorem step_idle {s : State} (h : engineTurn s = false) (hh : s.host = []) : step s = .next s := by
  simp [step, nextMove, h, hh]

/-- Where it is not the engine's turn, a step is the next host event. -/
theorem step_host {s : State} {op : HostOp} {rest : List HostOp} (h : engineTurn s = false) (hh : s.host = op :: rest) :
    step s = .next (hostMove op rest s) := by
  simp [step, nextMove, h, hh]

/-- The checks of a read depend only on the parameters, BUSY and CONFIGURED. -/
theorem checkRead_congr {s t : State} (h1 : t.params = s.params) (h2 : t.busy = s.busy)
    (h3 : t.configured = s.configured) (off : Word) (n : Nat) :
    checkRead off n t = checkRead off n s := by
  simp only [checkRead, h1, h2]
  cases mapAccess s.params off n with
  | none => rfl
  | some t => cases t <;> simp [readRule, h3]

/-- A window read on a configured filter (R160). -/
theorem hostRead_window (s : State) (w : Nat) (hw : w < 2 ^ 27) (hb : s.busy = false) (hc : s.configured = true) :
    hostRead (BitVec.ofNat 32 (0x20000000 + 4 * w)) 4 s = { s with v := s.bits.word s.m w } := by
  rw [hostRead_ok (mapAccess_window _ hw) (.inl hb) (by simp [readRule, hc])]; rfl

/-- A window write on a configured filter (R161). -/
theorem hostWrite_window (s : State) (w : Nat) (v : Word) (hw : w < 2 ^ 27) (hb : s.busy = false) (hc : s.configured = true) :
    hostWrite (BitVec.ofNat 32 (0x20000000 + 4 * w)) 4 v s = { s with bits := s.bits.setAll (windowCells s.m w v) } := by
  rw [hostWrite_ok (mapAccess_window _ hw) hb (by simp [writeRule, hc])]; rfl

end Sys2Proof.Machine
end

