-- ==== Sys2Proof/Laws/PerInstr.lean ====
section
/-! SUPPORT. Per command: its word selects its row of the opcode map (spec/30_encoding.md R86), shown constructor by
constructor. -/

namespace Sys2Proof.Laws.EncodesItsRow

/-- The command's word selects the command's row of the opcode map. -/
def Statement (i : Instr) : Prop := ∃ r, opcodeRows[rowNumber i]? = some r ∧ r.selects (encode i) = true

theorem nop : Statement .nop := ⟨_, rfl, by decide⟩
theorem config : Statement .config := ⟨_, rfl, by decide⟩
theorem hash : Statement .hash := ⟨_, rfl, by decide⟩
theorem hashPair : Statement .hashPair := ⟨_, rfl, by decide⟩
theorem insert : Statement .insert := ⟨_, rfl, by decide⟩
theorem query : Statement .query := ⟨_, rfl, by decide⟩

theorem index (i : Nat) : Statement (.index i) := by
  refine ⟨_, rfl, ?_⟩
  simp only [OpcodeRow.selects, encode, commandWord, beq_iff_eq]
  apply BitVec.eq_of_getLsbD_eq
  intro j hj
  simp only [BitVec.getLsbD_and, BitVec.getLsbD_append]
  interval_cases j <;> simp

end Sys2Proof.Laws.EncodesItsRow
end

