-- ==== Sys2Proof/Laws/Decode.lean ====
section
/-! SUPPORT. The command word as a number: its fields, the encoder's words and the decoder (spec/30_encoding.md R80, R82), said
once, so that no proof unfolds a bit-field extraction. -/

namespace Sys2Proof

theorem toNat_opField (c : Word) : (opField c).toNat = c.toNat % 16 := by simp [opField]

theorem toNat_resField (c : Word) : (resField c).toNat = c.toNat / 16 % 4096 := by
  simp [resField, Nat.shiftRight_eq_div_pow]

theorem toNat_immField (c : Word) : (immField c).toNat = c.toNat / 65536 := by
  have := c.isLt
  simp only [immField, BitVec.extractLsb'_toNat, Nat.shiftRight_eq_div_pow]
  omega

/-- A command word is `IMM16 * 2^16 + OP` (R82). -/
theorem toNat_commandWord (imm : BitVec 16) (op : BitVec 4) :
    (commandWord imm op).toNat = imm.toNat * 65536 + op.toNat := by
  have h1 : imm.toNat <<< 12 ||| 0 = imm.toNat <<< 12 := Nat.or_zero _
  have h2 := Nat.shiftLeft_add_eq_or_of_lt op.isLt (imm.toNat <<< 12)
  simp only [commandWord, BitVec.toNat_append, BitVec.toNat_ofNat, Nat.zero_mod, h1]
  rw [← h2]
  simp only [Nat.shiftLeft_eq]
  omega

/-- The decoder on the word as a number: R80's steps. -/
theorem decode_eq (c : Word) : decode c =
    if c.toNat / 16 % 4096 ≠ 0 then .error .reservedBits
    else if 7 ≤ c.toNat % 16 then .error .reservedOpcode
    else if c.toNat % 16 ≠ 6 ∧ c.toNat / 65536 ≠ 0 then .error .strayImmediate
    else match c.toNat % 16 with
      | 0 => .ok .nop
      | 1 => .ok .config
      | 2 => .ok .hash
      | 3 => .ok .hashPair
      | 4 => .ok .insert
      | 5 => .ok .query
      | _ => .ok (.index (c.toNat / 65536)) := by
  have h1 : resField c ≠ 0 ↔ c.toNat / 16 % 4096 ≠ 0 := by
    rw [← toNat_resField, ne_eq, ← BitVec.toNat_inj]; simp
  have h2 : opField c ≠ 6 ↔ c.toNat % 16 ≠ 6 := by rw [← toNat_opField, ne_eq, ← BitVec.toNat_inj]; simp
  have h3 : immField c ≠ 0 ↔ c.toNat / 65536 ≠ 0 := by rw [← toNat_immField, ne_eq, ← BitVec.toNat_inj]; simp
  simp only [decode, selectOpcode, h1, h2, h3, toNat_opField, toNat_immField]
  split
  · rfl
  · have : c.toNat % 16 < 16 := Nat.mod_lt _ (by norm_num)
    generalize c.toNat % 16 = k at *
    interval_cases k <;> simp

end Sys2Proof
end

