-- ==== Sys2Proof/Laws/Hash.lean ====
section
/-! SUPPORT. The hash core's defining equation in any TAIL_EXT mode, and its smallest cases. -/

namespace Sys2Proof.Machine

/-- MH3 is the blocks, then the tail, the length and the finalizer (R100). -/
theorem mh3_eq (ext : TailExt) (d : List Byte) (seed : Word) : mh3 ext d seed = finish ext d (mixBlocks d seed) := by
  cases ext <;> rfl

/-- The rotation of R14 is core Lean's. -/
theorem rotl32_eq (x : Word) {r : Nat} (h : r < 32) : rotl32 x r = x.rotateLeft r := by
  simp [rotl32, BitVec.rotateLeft, BitVec.rotateLeftAux, Nat.mod_eq_of_lt h]

/-- Without a tail, the tail step changes nothing (R105). -/
theorem foldTail_none (ext : TailExt) {d : List Byte} (h : Word) (hd : d.length % 4 = 0) : foldTail ext d h = h := by
  simp [foldTail, hd]

/-- Four bytes or-ed into their places are their concatenation. -/
theorem or_bytes_eq_append (x0 x1 x2 x3 : Byte) : ((x0.setWidth 32 ||| (x1.setWidth 32 <<< 8) ||| (x2.setWidth 32 <<< 16) ||| (x3.setWidth 32 <<< 24) : Word)) = x3 ++ x2 ++ x1 ++ x0 := by
  apply BitVec.eq_of_getLsbD_eq; intro i hi
  simp only [BitVec.getLsbD_or, BitVec.getLsbD_append, BitVec.getLsbD_shiftLeft, BitVec.getLsbD_setWidth]
  have a0 : ∀ k, 8 ≤ k → x0.getLsbD k = false := fun k hk => BitVec.getLsbD_of_ge _ _ hk
  have a1 : ∀ k, 8 ≤ k → x1.getLsbD k = false := fun k hk => BitVec.getLsbD_of_ge _ _ hk
  have a2 : ∀ k, 8 ≤ k → x2.getLsbD k = false := fun k hk => BitVec.getLsbD_of_ge _ _ hk
  by_cases h1 : i < 8
  · simp [h1, show i < 16 by omega, show i < 24 by omega, hi]
  · by_cases h2 : i < 16
    · simp [h1, h2, show i < 24 by omega, hi, a0 i (by omega), show i - 8 < 8 by omega]; omega
    · by_cases h3 : i < 24
      · simp [h1, h2, h3, hi, a0 i (by omega), a1 (i-8) (by omega), show ¬ (i - 8 < 8) by omega, show i - 8 - 8 = i - 16 by omega, show i - 16 < 8 by omega]; omega
      · simp [h1, h2, h3, hi, a0 i (by omega), a1 (i-8) (by omega), a2 (i-16) (by omega), show ¬ (i - 8 < 8) by omega, show i - 8 - 8 = i - 16 by omega, show ¬ i - 16 < 8 by omega, show i - 16 - 8 = i - 24 by omega]; omega

/-- The concatenation of four bytes as a number: the last one is the least significant. -/
theorem toNat_append_bytes (x0 x1 x2 x3 : Byte) : (x3 ++ x2 ++ x1 ++ x0 : Word).toNat = x0.toNat + x1.toNat * 2 ^ 8 + x2.toNat * 2 ^ 16 + x3.toNat * 2 ^ 24 := by
    have b0 := x0.isLt; have b1 := x1.isLt; have b2 := x2.isLt; have b3 := x3.isLt
    simp only [BitVec.toNat_append]
    have q1 := Nat.shiftLeft_add_eq_or_of_lt b2 x3.toNat
    rw [← q1]
    have q2 := Nat.shiftLeft_add_eq_or_of_lt b1 (x3.toNat <<< 8 + x2.toNat)
    rw [← q2]
    have q3 := Nat.shiftLeft_add_eq_or_of_lt b0 ((x3.toNat <<< 8 + x2.toNat) <<< 8 + x1.toNat)
    rw [← q3]
    simp only [Nat.shiftLeft_eq]; omega

/-- A block is the concatenation of its bytes (R101). -/
theorem block_eq_append (d : List Byte) (b : Nat) :
    block d b = byteAt d (4 * b + 3) ++ byteAt d (4 * b + 2) ++ byteAt d (4 * b + 1) ++ byteAt d (4 * b) :=
  or_bytes_eq_append _ _ _ _

/-- The bytes after a prefix. -/
theorem byteAt_append (d e : List Byte) (j : Nat) : byteAt (d ++ e) (d.length + j) = byteAt e j := by
  simp [byteAt, List.getD_eq_getElem?_getD, List.getElem?_append_right]

end Sys2Proof.Machine
end

