-- ==== Sys2Proof/Tests/Slice0.lean ====
section
/-! SUPPORT. Tests. Expected values come from spec/95_test_vectors.md (named by its row: T, X, F, W, E) and from
spec/30_encoding.md (R92, section 3.8 of 95); a comment says so where another rule gives them. Then, for each statement of
Certificates/Slice0/Obligations.lean with hypotheses, a witness that meets them together. -/

open Sys2Proof Sys2Proof.Machine

namespace Sys2Proof.Tests

/-! ### Helpers -/

/-- A property of the next state; false on a fault or a refusal. -/
def after (o : StepResult) (p : State → Bool) : Bool :=
  match o with
  | .next t => p t
  | .fault _ => false
  | .refused _ => false

theorem after_next {o : StepResult} {p : State → Bool} (h : after o p = true) : ∃ t, o = .next t ∧ p t = true := by
  cases o with
  | next t => exact ⟨t, rfl, h⟩
  | fault _ => cases h
  | refused _ => cases h

/-- The bytes as the item, on the reset state. -/
def holding (d : List Byte) : State :=
  { State.reset with itemLen := BitVec.ofNat 32 d.length, item := (List.range d.length).zip d }

/-- The bytes as the item, on a filter of `m` bits and `k` hashes. -/
def filter (m : Word) (k : BitVec 16) (d : List Byte) : State :=
  { holding d with bitCount := m, hashCount := k, configured := true }

def apple : List Byte := [0x61, 0x70, 0x70, 0x6c, 0x65]
def banana : List Byte := [0x62, 0x61, 0x6e, 0x61, 0x6e, 0x61]

/-- A command in flight whose turn has come. -/
def issued (s : State) (c : Word) : State := { s with pending := c, busy := true }

/-- A command in flight before whose step one host access falls. -/
def waiting (s : State) (c : Word) (ops : List HostOp) : State :=
  { s with pending := c, busy := true, engineDelay := 1, host := ops }

/-! ### Well-formedness -/

theorem test_index_too_large : Instr.wellFormed (.index 65536) = false := by decide
theorem test_index_largest : Instr.wellFormed (.index 65535) = true := by decide

/-! ### Decoding: words written bit by bit from spec/30_encoding.md R82 and R86 (95, section 3.8) -/

theorem test_decode_nop : decode 0b00000000000000000000000000000000 = .ok .nop := by decide
theorem test_decode_config : decode 0b00000000000000000000000000000001 = .ok .config := by decide
theorem test_decode_hash : decode 0b00000000000000000000000000000010 = .ok .hash := by decide
theorem test_decode_hashPair : decode 0b00000000000000000000000000000011 = .ok .hashPair := by decide
theorem test_decode_insert : decode 0b00000000000000000000000000000100 = .ok .insert := by decide
theorem test_decode_query : decode 0b00000000000000000000000000000101 = .ok .query := by decide
theorem test_decode_index : decode 0b00000000000000110000000000000110 = .ok (.index 3) := by decide
theorem test_decode_index_largest : decode 0b11111111111111110000000000000110 = .ok (.index 65535) := by decide
theorem test_decode_reserved_opcodes :
    decode 0x7 = .error .reservedOpcode ∧ decode 0x8 = .error .reservedOpcode ∧ decode 0xF = .error .reservedOpcode := by
  decide
theorem test_decode_reserved_bits :
    decode 0x00000010 = .error .reservedBits ∧ decode 0x00000016 = .error .reservedBits ∧
    decode 0x00008000 = .error .reservedBits := by decide
theorem test_decode_stray_immediate :
    decode 0x00010004 = .error .strayImmediate ∧ decode 0x00010000 = .error .strayImmediate ∧
    decode 0x80000005 = .error .strayImmediate := by decide
theorem test_decode_order : decode 0x00010017 = .error .reservedBits ∧ decode 0x00010007 = .error .reservedOpcode := by decide
theorem test_encode_index : encode (.index 65535) = 0xFFFF0006 := by decide

/-! ### Hash core (95, sections 1 and 3) -/

theorem test_hash_published :
    mh3 .zero [] 0x00000001 = 0x514e28b7 ∧ mh3 .zero [] 0xffffffff = 0x81f16f39 ∧
    mh3 .zero [0, 0, 0, 0] 0 = 0x2362f9de ∧ mh3 .zero [0x61, 0x61, 0x61, 0x61] 0x9747b28c = 0x5a97808a ∧
    mh3 .zero [0x61, 0x61, 0x61] 0x9747b28c = 0x283e0130 ∧ mh3 .zero [0x61, 0x61] 0x9747b28c = 0x5d211726 ∧
    mh3 .zero [0x61] 0x9747b28c = 0x7fa09ea6 ∧ mh3 .zero [0x66, 0x6f, 0x6f] 0 = 0xf6a5c420 := by decide
theorem test_hash_steps :
    block [0x61, 0x62, 0x63, 0x64, 0x65] 0 = 0x64636261 ∧ mixK 0x64636261 = 0x5b9433b7 ∧
    mixH 0x9747b28c 0x5b9433b7 = 0x1719cb66 ∧ mixK 0x65 = 0x8d3d9349 ∧ fmix 0x9a24582a = 0xe915b832 := by decide
theorem test_hash_two_blocks : mh3 .zero [1, 2, 3, 4, 5, 6, 7, 8] 0x9747b28c = 0x2b97e99d := by decide
theorem test_hash_tail_modes :
    mh3 .zero [0x80, 0x81, 0x82] 0x9747b28c = 0x2090b260 ∧ mh3 .sign [0x80, 0x81, 0x82] 0x9747b28c = 0xb2d0669f ∧
    mh3 .zero [0, 0xff] 0x9747b28c = 0x8cf36590 ∧ mh3 .sign [0, 0xff] 0x9747b28c = 0xfe44be95 ∧
    mh3 .sign [0xff, 0xff, 0xff, 0xff] 0x9747b28c = 0x9de672fb := by decide

/-! ### Index generator (95, section 3.5) -/

theorem test_index_wraps :
    indexList .wrap32 0xffffffff 0xffffffff 4 1000 = [295, 294, 293, 292] ∧
    indexList .exactSum 0xffffffff 0xffffffff 4 1000 = [295, 590, 885, 180] := by decide
theorem test_index_largest_operands :
    idx .wrap32 0x12345678 0x9abcdef0 65535 0xfffffffe = 1449621384 ∧
    idx .exactSum 0x12345678 0x9abcdef0 65535 0xfffffffe = 1449700608 := by decide

/-! ### The commands, one step each -/

theorem test_nop_only_completes :
    after (step (issued (filter 958 7 apple) 0x0)) (fun t => t == filter 958 7 apple) = true := by decide
theorem test_nop_with_immediate_is_illegal :
    after (step (issued State.reset 0x00010000))
      (fun t => t == { State.reset with err := .illegalCmd, pending := 0x00010000 }) = true := by decide
theorem test_config_clears_below_m :
    after (step (issued { State.reset with bitCount := 10, bits := [0, 9, 10] } 0x1))
      (fun t => t.configured && t.bits == [10] && t.err == .none && !t.busy) = true := by decide
/-- E12: one above BIT_COUNT_MAX. -/
theorem test_config_too_large :
    after (step (issued { State.reset with bitCount := 4097 } 0x1)) (fun t => !t.configured && t.err == .badConfig) = true := by
  decide
theorem test_hash_abc :
    after (step (issued { holding [0x61, 0x62, 0x63] with seed := 0x9747b28c } 0x2))
      (fun t => t.hashOut == 0xc84a62dd && t.h1 == 0 && t.h2 == 0 && !t.result) = true := by decide
/-- E13: one above ITEM_MAX. -/
theorem test_hash_item_too_long :
    after (step (issued { State.reset with itemLen := 65 } 0x2))
      (fun t => t == { State.reset with itemLen := 65, err := .itemLen, pending := 0x2 }) = true := by decide
theorem test_hashPair_apple :
    after (step (issued { holding apple with seed := 5 } 0x3))
      (fun t => t.h1 == 0xa85fe4f6 && t.h2 == 0x78ccfba0 && t.hashOut == 0) = true := by decide
theorem test_hashPair_empty_item :
    after (step (issued State.reset 0x3)) (fun t => t.h1 == 0xebb6c228 && t.h2 == 0xe37cd1bc) = true := by decide
/-- F1. -/
theorem test_insert_apple :
    after (step (issued (filter 958 7 apple) 0x4))
      (fun t => t.bits == [120, 214, 306, 506, 600, 692, 786] && t.h1 == 0xa85fe4f6) = true := by decide
/-- E19: NOT_CONFIGURED wins over ITEM_LEN. -/
theorem test_insert_before_config :
    after (step (issued { State.reset with itemLen := 65 } 0x4)) (fun t => t.err == .notConfigured && t.h1 == 0) = true := by
  decide
/-- F2 and F3. -/
theorem test_query_apple_and_banana :
    (after (step (issued { filter 958 7 apple with bits := [120, 214, 306, 506, 600, 692, 786] } 0x5)) (·.result) &&
     after (step (issued { filter 958 7 banana with bits := [120, 214, 306, 506, 600, 692, 786], result := true } 0x5))
      (fun t => !t.result)) = true := by decide
/-- F8: no bits, seven hashes. -/
theorem test_query_of_no_bits : after (step (issued (filter 0 7 apple) 0x5)) (·.result) = true := by decide
/-- X3, in both modes. -/
theorem test_index_one :
    (after (step (issued { filter 958 7 [] with h1 := 0xa85fe4f6, h2 := 0x78ccfba0 } 0x00010006)) (·.idxOut == 786) &&
     after (step (issued { filter 958 7 [] with
        h1 := 0xa85fe4f6, h2 := 0x78ccfba0, params := { Params.reference with idxMode := .exactSum } } 0x00010006))
      (·.idxOut == 212)) = true := by decide
/-- E17. -/
theorem test_index_of_no_bits :
    after (step (issued { filter 0 7 [] with idxOut := 9 } 0x6)) (fun t => t.err == .zeroModulus && t.idxOut == 9) = true := by
  decide
/-- R113, R182: the item's second cell was never written. -/
theorem test_unwritten_cell_faults :
    (match step (issued { holding [0x61] with itemLen := 2 } 0x2) with
      | .fault f => f == .unwrittenItemCell 1
      | .next _ => false
      | .refused _ => false) = true := by decide

/-! ### A placed word is the first instruction after reset -/

theorem test_placed_config :
    after (step (State.reset.withFetchWord 32 0x1)) (fun t => t.configured && !t.busy) = true := by decide
theorem test_placed_index : decodeTableWord 32 0xFFFF0006 = some (.index 65535) ∧ decodeTableWord 32 0x7 = none := by decide

/-! ### Bus accesses (95, sections 3.7 and 3.9) -/

theorem test_write_read_only_register : hostWrite 0x20 4 1 State.reset = { State.reset with err := .badAccess } := by decide
theorem test_misaligned_write : hostWrite 0x0E 4 1 State.reset = { State.reset with err := .badAccess } := by decide
theorem test_unmapped_read : hostRead 0x30 4 { State.reset with v := 1 } = { State.reset with err := .badAccess } := by decide
theorem test_byte_write_of_status :
    hostWrite 0x0C 1 0 { State.reset with err := .notConfigured } = { State.reset with err := .notConfigured } := by decide
theorem test_misaligned_item_word : (hostRead 0x801 4 State.reset).err = .badAccess := by decide
theorem test_unmapped_hole : (hostWrite 0x10000000 4 1 State.reset).err = .badAccess := by decide
theorem test_half_word : (hostRead 0x800 2 State.reset).err = .badAccess := by decide
theorem test_locked_hash_count : (hostWrite 0x14 4 5 (filter 958 7 [])).err = .configLocked := by decide
theorem test_write_while_busy :
    hostWrite 0x1C 4 5 (issued State.reset 0x2) = { issued State.reset 0x2 with err := .busy } := by decide
theorem test_read_status_while_busy : (hostRead 0x0C 4 (issued State.reset 0x2)).v = 1 := by decide
/-- E18. -/
theorem test_first_error_kept :
    (hostWrite 0x20 4 1 { State.reset with err := .notConfigured }).err = .notConfigured := by decide
theorem test_status_word :
    (hostRead 0x0C 4 { filter 958 7 [] with result := true, err := .zeroModulus }).v = 0x00000806 := by decide
theorem test_item_word_bytes :
    (hostWrite 0x800 4 0x6c707061 State.reset).item = [(0, 0x61), (1, 0x70), (2, 0x70), (3, 0x6c)] := by decide
theorem test_hash_count_keeps_low_half : (hostWrite 0x14 4 0xABCD0007 State.reset).hashCount = 7 := by decide
/-- W1 and W2. -/
theorem test_window_padding :
    let s := hostWrite 0x20000000 4 0xFFFFFFFF (filter 10 2 [])
    s.bits = [0, 1, 2, 3, 4, 5, 6, 7, 8, 9] ∧ (hostRead 0x20000000 4 s).v = 0xFFC00000 ∧
    (hostRead 0x20000004 4 s).v = 0 ∧ (hostRead 0x20000004 4 s).err = .none := by decide +kernel
/-- W3. -/
theorem test_window_cells : (hostWrite 0x20000000 4 0x02800000 (filter 10 2 [])).bits = [6, 8] := by decide
/-- W4. -/
theorem test_artifact_bytes :
    writeArtifact { filter 10 2 [] with bits := [6, 8] } =
      [0x43, 0x43, 0x42, 0x46, 0, 1, 0, 2, 0, 0, 0, 0x0a, 0x02, 0x80] := by decide +kernel
/-- I19: a list of cells of the wrong length; R144: the words of one of the right length. -/
theorem test_restore :
    restore { bitCount := 10, hashCount := 2, cells := [true] } = .error .lengthMismatch ∧
    restore { bitCount := 3, hashCount := 2, cells := [true, false, true] } =
      .ok (boot 3 2 ++ [w32 0x20000000 0xA0000000]) := by decide +kernel
/-- W7. -/
theorem test_window_before_config :
    hostRead 0x20000000 4 { State.reset with v := 1 } = { State.reset with err := .notConfigured } := by decide
theorem test_poll_repeats :
    after (step (waiting State.reset 0x2 [.poll])) (fun t => t.host == [.poll] && t.v == 1 && t.engineDelay == 0) = true := by
  decide
theorem test_platform_reset :
    after (step { filter 958 7 apple with host := [.platformReset] }) (fun t => t == State.reset) = true := by decide

/-! ### Witnesses: for each statement with hypotheses, values that meet them together, clause by clause where it has several.
`malformed` serves every clause `MalformedRaises`. -/

theorem witness_DecodeUndoesEncode :
    Instr.wellFormed .query = true ∧ Instr.wellFormed (.index 0) = true ∧ Instr.wellFormed (.index 65535) = true := by decide

theorem witness_EncodeUndoesDecode : decode 0xFFFF0006 = .ok (.index 65535) ∧ decode 0x5 = .ok .query := by decide

theorem witness_OpcodeMapSelectsOneRow :
    (⟨0x00000006, 0x0000FFFF⟩ ∈ opcodeRows ∧ OpcodeRow.selects ⟨0x00000006, 0x0000FFFF⟩ 0xFFFF0006 = true) ∧
    (0x00000005 : Word) &&& 0xFFFFFFFF = 0x00000005 ∧ (0xFFFF0006 : Word) &&& 0x0000FFFF = 0x00000006 ∧
    ∀ r ∈ opcodeRows, r.selects (issued State.reset 0x7).pending = false := by decide

theorem witness_EngineDispatchFollowsSteps :
    (0x00000010 / 2 ^ 4 % 2 ^ 12 ≠ 0 ∧ 0x0000FFF6 / 2 ^ 4 % 2 ^ 12 ≠ 0) ∧
    (0x7 / 2 ^ 4 % 2 ^ 12 = 0 ∧ 7 ≤ 0x7 % 16) ∧
    (0x00010005 / 2 ^ 4 % 2 ^ 12 = 0 ∧ 0x00010005 % 16 < 6 ∧ 0x00010005 / 2 ^ 16 ≠ 0) ∧
    (0xFFFF0006 / 2 ^ 4 % 2 ^ 12 = 0 ∧ 0xFFFF0006 % 16 = 6) ∧
    (0x5 / 2 ^ 4 % 2 ^ 12 = 0 ∧ 0x5 / 2 ^ 16 = 0 ∧ 0x5 % 16 = 5) ∧
    (issued State.reset 0xFFFF0006).pending.toNat = 0xFFFF0006 := by decide

theorem witness_StepPerformsDecodedCommand :
    (let s := issued State.reset 0x4; s.busy = true ∧ s.engineDelay = 0 ∧ decode s.pending = .ok .insert) ∧
    (let s := waiting State.reset 0x4 []; s.busy = true ∧ s.host = [] ∧ decode s.pending = .ok .insert) ∧
    (let s := issued State.reset 0x00010004
     s.busy = true ∧ s.engineDelay = 0 ∧ decode s.pending = .error .strayImmediate) := by decide

theorem witness_PlacedWordIsPerformedNext : decodeTableWord 32 0xFFFF0006 = some (.index 65535) := by decide

theorem witness_StepTakesTheHostsMove :
    (State.reset.busy = false ∧ State.reset.host = []) ∧
    (let s := waiting State.reset 0x2 [.poll]; s.engineDelay ≠ 0 ∧ s.host = [.poll] ∧
      (perform .poll { s with engineDelay := 0 }).v.getLsbD 0 = true) ∧
    (let s := { State.reset with host := [.poll, .read 0 4] }; s.busy = false ∧ s.host = [.poll, .read 0 4] ∧
      (perform .poll s).v.getLsbD 0 = false) := by decide

theorem witness_malformed :
    ∀ op : BitVec 4, op.toNat < 7 →
      (let c := (issued State.reset (0x00000010 ||| op.setWidth 32)).pending
       c.extractLsb' 0 4 = op ∧ c.extractLsb' 4 12 ≠ 0) ∧
      (op ≠ 6 →
        let c := (issued State.reset (0x80000000 ||| op.setWidth 32)).pending
        c.extractLsb' 0 4 = op ∧ c.extractLsb' 16 16 ≠ 0) := by decide

theorem witness_ConfigConfiguresOnce :
    (filter 958 7 []).configured = true ∧
    (let s := { State.reset with bitCount := 4097 }
     s.configured = false ∧ s.params.bitCountMax < s.bitCount.toNat) ∧
    (let s := { State.reset with bitCount := 4096 }
     s.configured = false ∧ s.bitCount.toNat ≤ s.params.bitCountMax) := by decide

/-- The item of the largest length, 64 bytes, and the empty one are ready; 65 is too long. -/
theorem witness_HashWritesHashOut :
    (holding (List.replicate 64 0x61)).ItemReady ∧ (State.reset.ItemReady ∧ State.reset.itemLen = 0) ∧
    (let s := { State.reset with itemLen := 65 }; s.params.itemMax < s.itemLen.toNat) := by decide +kernel

theorem witness_HashPairWritesBothHashes :
    (holding apple).ItemReady ∧
    (let s := { State.reset with itemLen := 0xFFFFFFFF }; s.params.itemMax < s.itemLen.toNat) := by decide

theorem witness_InsertSetsIndexedCells :
    State.reset.configured = false ∧
    (let s := { filter 958 7 [] with itemLen := 65 }; s.configured = true ∧ s.params.itemMax < s.itemLen.toNat) ∧
    ((filter 958 7 apple).configured = true ∧ (filter 958 7 apple).ItemReady) ∧
    ((filter 0 7 []).configured = true ∧ (filter 0 7 []).ItemReady) := by decide

theorem witness_QueryTestsIndexedCells :
    State.reset.configured = false ∧
    (let s := { filter 958 7 [] with itemLen := 65 }; s.configured = true ∧ s.params.itemMax < s.itemLen.toNat) ∧
    ((filter 958 7 apple).configured = true ∧ (filter 958 7 apple).ItemReady) ∧
    (let s := filter 10 2 apple; s.configured = true ∧ s.ItemReady ∧ s.bitCount ≠ 0 ∧ s.hashCount ≠ 0 ∧
      ∀ j < s.bitCount.toNat, s.bits.get j = false) := by decide

theorem witness_IndexWritesIdxOut :
    State.reset.configured = false ∧ ((filter 0 7 []).configured = true ∧ (filter 0 7 []).bitCount = 0) ∧
    ((filter 1 7 []).configured = true ∧ (filter 1 7 []).bitCount = 1 ∧ (filter 1 7 []).h2 = 0 ∧ (filter 1 7 []).h1 = 0) ∧
    ((filter 0xFFFFFFFF 7 []).configured = true ∧ (filter 0xFFFFFFFF 7 []).bitCount ≠ 0) := by decide

theorem witness_ItemFetchOutcomes :
    (let s := { filter 958 7 [] with itemLen := 65 }; s.params.itemMax < s.itemLen.toNat ∧ s.configured = true) ∧
    (let s := holding apple; s.itemLen.toNat ≤ s.params.itemMax ∧ apple.length = s.itemLen.toNat ∧
      ∀ a, (h : a < apple.length) → s.item.read a = some apple[a]) ∧
    State.reset.itemLen = 0 ∧
    (let s := { filter 958 7 [0x61] with itemLen := 2 }
     s.itemLen.toNat ≤ s.params.itemMax ∧ 1 < s.itemLen.toNat ∧ s.item.read 1 = none ∧
      (∀ b < 1, (s.item.read b).isSome = true) ∧ s.configured = true) := by decide

theorem witness_UnconfiguredUseIsRefused :
    (let s := { State.reset with bitCount := 4096 }
     s.configured = false ∧ s.busy = false ∧ s.bitCount.toNat ≤ s.params.bitCountMax ∧ s.ItemReady) ∧
    2 ^ 27 - 1 < 2 ^ 27 := by decide

theorem witness_DegenerateFilterAnswersTrue :
    ((filter 0 7 apple).configured = true ∧ (filter 0 7 apple).ItemReady ∧ (filter 0 7 apple).bitCount = 0) ∧
    ((filter 2 0 apple).configured = true ∧ (filter 2 0 apple).ItemReady ∧ (filter 2 0 apple).hashCount = 0) := by decide

theorem witness_InsertLaws :
    (∃ t, exec .insert (filter 10 2 apple) = .next t ∧ (∃ u, exec .insert t = .next u) ∧
      (∃ j, (filter 10 2 apple).bits.get j = true ∨ t.bits.get j = true)) ∧
    (let s := filter 10 2 apple
     s.params.Valid ∧ s.configured = true ∧ s.busy = false ∧ s.ItemReady ∧
      (∀ d ∈ [apple, banana], d.length ≤ s.params.itemMax)) ∧
    (∀ d, d ∈ [apple, banana] ↔ d ∈ [banana, apple, banana]) ∧
    (let s := { filter 10 2 [] with itemLen := 64 }
     s.configured = true ∧ s.itemLen.toNat ≤ s.params.itemMax ∧ ¬ s.ItemReady) := by
  refine ⟨?_, by decide, fun d => by simp; tauto, by decide⟩
  have h : after (exec .insert (filter 10 2 apple)) (fun t => after (exec .insert t) (fun _ => true) && !t.bits.isEmpty) =
    true := by decide
  obtain ⟨t, ht, hp⟩ := after_next h
  simp only [Bool.and_eq_true] at hp
  obtain ⟨u, hu, -⟩ := after_next hp.1
  refine ⟨t, ht, ⟨u, hu⟩, ?_⟩
  cases hb : t.bits with
  | nil => rw [hb] at hp; exact absurd hp.2 (by decide)
  | cons j b => exact ⟨j, .inr (by simp [BitArray.get])⟩

/-- An INSERT, a register write by the host, and a QUERY; and a filter of two set bits. -/
theorem witness_QueryHasNoFalseNegatives :
    (let s := { filter 10 2 apple with host := [w32 0x1C 5] }
     s.configured = true ∧ s.NoReset ∧ s.ItemReady ∧
      ∃ s1, exec .insert s = .next s1 ∧ ∃ s2, Sys2Proof.core.run 1 s1 = .next s2 ∧
        s2.ItemReady ∧ s2.theItem = s.theItem ∧ s2.seed = 5 ∧ ∃ s3, exec .query s2 = .next s3) ∧
    (let s := { filter 2 7 apple with bits := [0, 1] }
     s.configured = true ∧ s.ItemReady ∧ ∀ j < s.bitCount.toNat, s.bits.get j = true) := by
  refine ⟨⟨rfl, by decide, by decide, ?_⟩, by decide⟩
  have h : after (exec .insert { filter 10 2 apple with host := [w32 0x1C 5] }) (fun t => after (step t) (fun u =>
      decide u.ItemReady && u.theItem == apple && u.seed == 5 && after (exec .query u) (fun _ => true))) = true := by decide
  obtain ⟨t, ht, hp⟩ := after_next h
  obtain ⟨u, hu, hq⟩ := after_next hp
  simp only [Bool.and_eq_true, decide_eq_true_eq, beq_iff_eq] at hq
  obtain ⟨w, hw, -⟩ := after_next hq.2
  refine ⟨t, ht, u, ?_, hq.1.1.1, hq.1.1.2.trans (by decide), hq.1.2, w, hw⟩
  have e : Sys2Proof.core.step t = .next u := hu
  simp only [Host.Core.run, e]

/-- Each of the seven commands answers a next state somewhere, with an error already recorded. -/
theorem witness_CommandFrame :
    ∀ i ∈ [Instr.nop, .config, .hash, .hashPair, .insert, .query, .index 1],
      let s := { filter 10 2 apple with err := .busy, configured := !(i == .config) }
      s.err ≠ .none ∧ ∃ t, exec i s = .next t := by
  intro i hi
  refine ⟨by decide +revert, ?_⟩
  have h : ∀ i ∈ [Instr.nop, .config, .hash, .hashPair, .insert, .query, .index 1],
      after (exec i { filter 10 2 apple with err := .busy, configured := !(i == .config) }) (fun _ => true) = true := by decide
  obtain ⟨t, ht, -⟩ := after_next (h i hi)
  exact ⟨t, ht⟩

theorem witness_FirstErrorIsKept : (0x10 : Word) ≠ 0x0C := by decide

theorem witness_ErrorsArePrecise :
    (let s := issued State.reset 0x7; s.err = .none ∧ ∃ t, engineStep s = .next t ∧ t.err ≠ .none) ∧
    (State.reset.err = .none ∧ (hostWrite 0x00 4 0 State.reset).err ≠ .none) ∧
    (hostRead 0x30 4 State.reset).err ≠ .none := by
  refine ⟨⟨rfl, ?_⟩, by decide, by decide⟩
  have h : after (engineStep (issued State.reset 0x7)) (fun t => t.err != .none) = true := by decide
  obtain ⟨t, ht, hp⟩ := after_next h
  exact ⟨t, ht, by simpa using hp⟩

theorem witness_ErrIsClearedOnlyByStatusWriteOrReset :
    (State.reset.busy = false ∧ (issued State.reset 0x2).busy = true) ∧
    (∀ op ∈ [HostOp.write 0x0C 4 0, .platformReset],
      let s := { State.reset with err := .busy, host := [op] }
      s.err ≠ .none ∧ ∃ t, step s = .next t ∧ t.err ≠ s.err) := by
  refine ⟨by decide, fun op ho => ⟨fun h => (by cases h), ?_⟩⟩
  have h : ∀ op ∈ [HostOp.write 0x0C 4 0, .platformReset],
      after (step { State.reset with err := .busy, host := [op] }) (fun t => t.err != .busy) = true := by decide
  obtain ⟨t, ht, hp⟩ := after_next (h op ho)
  exact ⟨t, ht, by simpa using hp⟩

theorem witness_HashingRaisesNoErrorOfItsOwn :
    (let s := { filter 10 2 [] with itemLen := 65 }; s.err = .none ∧ ∃ t, exec .query s = .next t) ∧
    ((filter 10 2 apple).configured = true ∧ (filter 10 2 apple).ItemReady) := by
  refine ⟨⟨rfl, ?_⟩, by decide⟩
  have h : after (exec .query { filter 10 2 [] with itemLen := 65 }) (fun _ => true) = true := by decide
  obtain ⟨t, ht, -⟩ := after_next h
  exact ⟨t, ht⟩

theorem witness_OnlyUnwrittenItemCellsStopTheMachine :
    step (issued { holding [0x61] with itemLen := 2 } 0x2) = .fault (.unwrittenItemCell 1) := rfl

theorem witness_StepKeepsTheInvariant :
    (issued (filter 958 7 apple) 0x4).Inv ∧ ∃ t, step (issued (filter 958 7 apple) 0x4) = .next t := by
  refine ⟨by decide, ?_⟩
  have h : after (step (issued (filter 958 7 apple) 0x4)) (fun _ => true) = true := by decide
  obtain ⟨t, ht, -⟩ := after_next h
  exact ⟨t, ht⟩

/-- The reference parameters, and the largest the spec allows. -/
theorem witness_ResetMeetsTheInvariant :
    Params.reference.Valid ∧ { Params.reference with bitCountMax := 2 ^ 32 - 1, itemMax := 2048 }.Valid := by decide

theorem witness_CellsAreNeverCleared :
    let s := issued { filter 10 2 apple with bits := [9] } 0x4
    s.configured = true ∧ ¬ s.ResetNext ∧ s.bits.get 9 = true ∧ s.bitCount.toNat ≤ 10 ∧ ∃ t, step s = .next t := by
  refine ⟨rfl, by decide, by decide, by decide, ?_⟩
  have h : after (step (issued { filter 10 2 apple with bits := [9] } 0x4)) (fun _ => true) = true := by decide
  obtain ⟨t, ht, -⟩ := after_next h
  exact ⟨t, ht⟩

/-- A run of a refused write to BIT_COUNT. -/
theorem witness_ConfiguredParametersNeverChange :
    let s := { filter 10 2 [] with host := [w32 0x10 5] }
    s.configured = true ∧ s.busy = false ∧ s.NoReset ∧ ∃ t, Sys2Proof.core.run 1 s = .next t :=
  ⟨rfl, rfl, by decide, _, rfl⟩

theorem witness_BusyFollowsTheCommand :
    (let s := { State.reset with host := [cmd .hash] }
     s.busy = false ∧ ∃ t, step s = .next t ∧ t.busy = true) ∧
    (let s := issued State.reset 0x0
     s.busy = true ∧ engineTurn s = true ∧ ∃ t, step s = .next t ∧ t.busy = false) :=
  ⟨⟨rfl, _, rfl, rfl⟩, rfl, rfl, _, rfl, rfl⟩

theorem witness_ResetValues : State.reset.busy = false ∧ State.reset.configured = false := by decide

theorem witness_PlatformResetRestoresResetState :
    (let s := { filter 10 2 apple with host := [.platformReset] }
     s.busy = false ∧ s.host = [.platformReset]) ∧
    (let s := waiting State.reset 0x2 [.platformReset]
     s.engineDelay ≠ 0 ∧ s.host = [.platformReset]) := by decide

theorem witness_IdentificationIsConstant : State.reset.busy = false := rfl

theorem witness_CmdWriteIssuesTheCommand : State.reset.busy = false ∧ decode 0xFFFF0006 = .ok (.index 65535) := by decide

theorem witness_StatusReadsItsFields :
    State.reset.busy = false ∧
    ∀ e ∈ [ErrCode.none, .illegalCmd, .notConfigured, .configLocked, .badConfig, .itemLen, .busy, .badAccess, .zeroModulus],
      ({ State.reset with err := e } : State).err = e := ⟨rfl, fun _ _ => rfl⟩

theorem witness_RegistersReadTheirValues : (filter 958 7 apple).busy = false := rfl

theorem witness_RegisterWritesStore :
    (State.reset.busy = false ∧ State.reset.configured = false) ∧
    ((filter 10 2 []).busy = false ∧ (filter 10 2 []).configured = true) := by decide

/-- Just past the registers, past the item window's mapped part, past the bit window, and a half word. -/
theorem witness_IllegalAccessesAreRefused :
    Params.reference.Valid ∧ ¬ LegalAccess Params.reference 0x30 4 ∧ ¬ LegalAccess Params.reference 0x840 1 ∧
    ¬ LegalAccess Params.reference 0x40000000 4 ∧ ¬ LegalAccess Params.reference 0x800 2 := by decide

theorem witness_BusyRefusesOtherAccesses :
    (issued State.reset 0x2).params.Valid ∧ (issued State.reset 0x2).busy = true ∧
    LegalAccess Params.reference 0x2C 4 ∧ LegalAccess Params.reference 0x83F 1 ∧
    LegalAccess Params.reference 0x3FFFFFFC 4 ∧ LegalAccess Params.reference 0x0C 4 := by decide

theorem witness_AccessChecksInOrder :
    Params.reference.Valid ∧ ¬ LegalAccess Params.reference 0x0E 4 ∧
    (LegalAccess Params.reference 0x10 4 ∧ (issued State.reset 0x2).busy = true ∧
      (0x10 : Word) ≠ 0x00 ∧ (0x10 : Word) ≠ 0x04 ∧ (0x10 : Word) ≠ 0x0C) ∧
    (LegalAccess Params.reference 0x2C 4 ∧ State.reset.busy = false ∧
      (0x2C : Word).toNat ∈ [0x00, 0x04, 0x20, 0x24, 0x28, 0x2C]) ∧
    ((filter 10 2 []).configured = true ∧ (filter 10 2 []).busy = false ∧ (0x14 : Word).toNat ∈ [0x10, 0x14]) ∧
    (State.reset.configured = false ∧ LegalAccess Params.reference 0x20000000 4 ∧
      0x20000000 ≤ (0x20000000 : Word).toNat) ∧
    ((0x10 : Word).toNat ∉ [0x00, 0x04, 0x20, 0x24, 0x28, 0x2C] ∧ (0x10 : Word).toNat < 0x20000000) ∧
    ((0x83C : Word).toNat ∉ [0x10, 0x14] ∧ LegalAccess Params.reference 0x83C 4) :=
  ⟨by decide, by decide, by decide, by decide, by decide, by decide, by decide, by decide⟩

/-- The last byte and the last word of the item buffer, written and unwritten. -/
theorem witness_ItemWindowHoldsBytes :
    (let s := State.reset; s.params.Valid ∧ s.busy = false ∧ 63 < s.params.itemMax ∧ s.item.read 63 = none) ∧
    (let s := holding (List.replicate 64 0x61)
     60 < s.params.itemMax ∧ 60 % 4 = 0 ∧ s.item.read 60 = some 0x61 ∧ s.item.read (60 + 1) = some 0x61 ∧
      s.item.read (60 + 2) = some 0x61 ∧ s.item.read (60 + 3) = some 0x61) ∧
    (let s := holding [1]; 0 % 4 = 0 ∧ s.item.read (0 + 0) = some 1 ∧ s.item.read (0 + 1) = none) := by decide +kernel

/-- The last word of the window, and the first word of a filter of ten bits, before and after CONFIG. -/
theorem witness_WindowReadsPackedCells :
    2 ^ 27 - 1 < 2 ^ 27 ∧ State.reset.busy = false ∧ State.reset.configured = false ∧
    (filter 10 2 []).busy = false ∧ (filter 10 2 []).configured = true ∧
    4 * 0 + 1 < ((filter 10 2 []).bitCount.toNat + 7) / 8 := by decide

theorem witness_WindowWriteOrsCells :
    2 ^ 27 - 1 < 2 ^ 27 ∧ (State.reset.busy = false ∧ State.reset.configured = false) ∧
    ((filter 10 2 []).busy = false ∧ (filter 10 2 []).configured = true ∧ 32 / 32 ≠ 0) := by decide

theorem witness_WindowLaws :
    (let s := { filter 10 2 apple with bits := [6, 8] }
     s.busy = false ∧ s.configured = true ∧ s.ItemReady) ∧
    (let r := filter 10 2 apple
     r.busy = false ∧ r.configured = true ∧ r.bitCount = (filter 10 2 []).bitCount ∧
      ∀ j < r.bitCount.toNat, r.bits.get j = false) := by decide

theorem witness_ReadsHaveNoSideEffect :
    (hostRead 0x20 4 State.reset).draws = State.reset.draws ∧ (hostRead 0x30 4 State.reset).err ≠ State.reset.err := by decide

theorem witness_OperandsAreStableWhileBusy :
    let s := waiting (filter 10 2 apple) 0x4 [w32 0x1C 5]
    s.busy = true ∧ engineTurn s = false ∧ ¬ s.ResetNext ∧ ∃ t, step s = .next t :=
  ⟨rfl, rfl, by decide, _, rfl⟩

theorem witness_ScheduleDoesNotChangeTheResult :
    let s := waiting (filter 10 2 apple) 0x4 [w32 0x1C 5]
    s.busy = true ∧ s.NoReset ∧ 1 ≤ s.engineDelay ∧ ∃ t, Sys2Proof.core.run 1 s = .next t ∧ t.busy = true :=
  ⟨rfl, by decide, by decide, _, rfl, rfl⟩

theorem witness_EngineStepComes :
    let s := waiting (filter 10 2 apple) 0x4 [w32 0x1C 5]
    s.busy = true ∧ s.NoReset := by decide

theorem witness_BlockReadIsLittleEndian : 4 * 0 + 3 < ([1, 2, 3, 4] : List Byte).length := by decide

theorem witness_TailFoldsByLength :
    ([] : List Byte).length % 4 = 0 ∧ ([0xFF, 0x80, 1, 2] : List Byte).length % 4 = 0 := by decide

theorem witness_TailWideningDiffersOnlyOnHighBytes :
    0x80 ≤ (0x80 : Byte).toNat ∧
    (∀ j, 4 * (([1, 2, 3, 0xFF, 0x7F] : List Byte).length / 4) ≤ j →
      (h : j < ([1, 2, 3, 0xFF, 0x7F] : List Byte).length) → ([1, 2, 3, 0xFF, 0x7F] : List Byte)[j].toNat < 0x80) ∧
    ([0xFF, 0xFF, 0xFF, 0xFF] : List Byte).length % 4 = 0 := by
  refine ⟨by decide, fun j h1 h2 => ?_, by decide⟩
  simp only [List.length_cons, List.length_nil] at h1 h2
  obtain rfl : j = 4 := by omega
  change (0x7F : Byte).toNat < 0x80
  decide

theorem witness_HashLaws : ([1, 2, 3, 4] : List Byte).length % 4 = 0 := by decide

/-- The empty list and one whole block, with a tail of the largest length. -/
theorem witness_PipelineComputesTheHash :
    ([] : List Byte).length % 4 = 0 ∧ ([1, 2, 3, 4] : List Byte).length % 4 = 0 ∧ ([5, 6, 7] : List Byte).length < 4 := by decide

theorem witness_IndexLaw : 65535 ≤ 65535 ∧ 1 ≤ 2 ^ 32 - 1 ∧ 2 ^ 32 - 1 ≤ 2 ^ 32 - 1 ∧ 1 ≤ 1 := by decide

/-- (a) X6; a power of two; no wrap; and 958, which is no power of two. -/
theorem witness_IndexCornerCases :
    (1 ≤ 97 ∧ (0x00017ae8 : Word).toNat % 97 = 0 ∧ (0xdeadbeef : Word).toNat + 2 * (0x00017ae8 : Word).toNat < 2 ^ 32) ∧
    (32 ≤ 32 ∧ (0 : Word).toNat % 2 ^ 32 = 0 ∧ (0x80000000 : Word).toNat % 2 ^ 31 = 0) ∧
    (1 ≤ 958 ∧ 958 < 2 ^ 32 ∧ ∀ e, 958 ≠ 2 ^ e) := by
  refine ⟨by decide, by decide, by decide, by decide, fun e h => ?_⟩
  have h479 : 479 ∣ 2 ^ e := ⟨2, by omega⟩
  have := (Nat.Prime.dvd_of_dvd_pow (by norm_num) h479)
  omega

theorem witness_IndexListFormsAgree :
    1 ≤ 958 ∧ 6 < 7 ∧ ∀ j : Nat, j ∈ [8, 6, 8] ↔ j ∈ [6, 8] := by
  refine ⟨by decide, by decide, fun j => by simp; tauto⟩

/-- An item of the largest length, ITEM_MAX, and the empty item. -/
theorem witness_ItemPseudoInstructionLoadsTheItem :
    let s := State.reset
    s.params.Valid ∧ s.busy = false ∧ (List.replicate 64 (0x61 : Byte)).length ≤ s.params.itemMax ∧
    ([] : List Byte).length ≤ s.params.itemMax := by decide

theorem witness_ArtifactRoundTrip :
    (([] : List Byte).take 4 ≠ [0x43, 0x43, 0x42, 0x46]) ∧
    (([0x43, 0x43, 0x42, 0x46, 0] : List Byte).take 4 = [0x43, 0x43, 0x42, 0x46] ∧
      ([0x43, 0x43, 0x42, 0x46, 0] : List Byte).length < 12) ∧
    (4 ≤ 4 ∧ 13 < (writeArtifact (filter 10 2 [])).length) ∧
    (let a : Artifact := { bitCount := 3, hashCount := 2, cells := [true, false, true] }
     let s := filter 3 2 []
     s.busy = false ∧ s.configured = true ∧ s.bitCount = a.bitCount ∧ a.cells.length = a.bitCount.toNat ∧
      (∀ j < s.bitCount.toNat, s.bits.get j = false) ∧ 2 < a.cells.length) ∧
    (let a : Artifact := { bitCount := 4, hashCount := 2, cells := [true, false, true] }
     a.cells.length ≠ a.bitCount.toNat) := by decide +kernel

end Sys2Proof.Tests
end

section
/-! SUPPORT. What one step can do, said once as an inductive relation per layer: a command that completes, an event from outside,
a move of the machine. Every invariant of this family is a case split on them. -/

namespace Sys2Proof.Machine

/-! ### Commands -/

/-- `Completes s i u`: command `i` meets its checks in `s` and leaves `u`, BUSY aside (R114, R115, R133, R140, R142, R145, R147). -/
inductive Completes (s : State) : Instr → State → Prop
  | nop : Completes s .nop s
  | config (hc : s.configured = false) (hm : s.m ≤ s.params.bitCountMax) :
      Completes s .config { s with bits := s.bits.clearBelow s.m, configured := true }
  | hash (hr : s.ItemReady) : Completes s .hash { s with hashOut := s.mh3 s.theItem s.seed }
  | hashPair (hr : s.ItemReady) : Completes s .hashPair (s.writePair s.theItem)
  | insert (hc : s.configured = true) (hr : s.ItemReady) : Completes s .insert (s.insertItem s.theItem)
  | query (hc : s.configured = true) (hr : s.ItemReady) : Completes s .query (s.queryItem s.theItem)
  | index (n : Nat) (hc : s.configured = true) (hm : s.m ≠ 0) :
      Completes s (.index n) { s with idxOut := BitVec.ofNat 32 (idx s.params.idxMode s.h1 s.h2 n s.m) }

/-- A command that answers a next state raises one error and does nothing else, or completes (R171, R176). -/
theorem exec_next {i : Instr} {s t : State} (h : exec i s = .next t) :
    (∃ c, t = s.failed c) ∨ ∃ u, Completes s i u ∧ t = u.complete := by
  cases i with
  | nop => exact .inr ⟨_, .nop, execNop_next h⟩
  | config =>
    obtain ⟨-, rfl⟩ | ⟨hc, hm, rfl⟩ | ⟨-, -, rfl⟩ := execConfig_next h
    · exact .inl ⟨_, rfl⟩
    · exact .inr ⟨_, .config hc hm, rfl⟩
    · exact .inl ⟨_, rfl⟩
  | hash =>
    obtain ⟨hr, rfl⟩ | ⟨-, rfl⟩ := execHash_next h
    · exact .inr ⟨_, .hash hr, rfl⟩
    · exact .inl ⟨_, rfl⟩
  | hashPair =>
    obtain ⟨hr, rfl⟩ | ⟨-, rfl⟩ := execHashPair_next h
    · exact .inr ⟨_, .hashPair hr, rfl⟩
    · exact .inl ⟨_, rfl⟩
  | insert =>
    obtain ⟨hc, hr, rfl⟩ | ⟨-, rfl⟩ | ⟨-, -, rfl⟩ := execInsert_next h
    · exact .inr ⟨_, .insert hc hr, rfl⟩
    · exact .inl ⟨_, rfl⟩
    · exact .inl ⟨_, rfl⟩
  | query =>
    obtain ⟨hc, hr, rfl⟩ | ⟨-, rfl⟩ | ⟨-, -, rfl⟩ := execQuery_next h
    · exact .inr ⟨_, .query hc hr, rfl⟩
    · exact .inl ⟨_, rfl⟩
    · exact .inl ⟨_, rfl⟩
  | index n =>
    obtain ⟨hc, hm, rfl⟩ | ⟨-, rfl⟩ | ⟨-, -, rfl⟩ := execIndex_next h
    · exact .inr ⟨_, .index n hc hm, rfl⟩
    · exact .inl ⟨_, rfl⟩
    · exact .inl ⟨_, rfl⟩

/-! ### Events from outside -/

/-- `Performs s op u`: event `op` takes `s` to `u`. A read and a refused access change only what the host sees and the error
record, whose first error they keep (R57, R175). -/
inductive Performs (s : State) : HostOp → State → Prop
  | view {op : HostOp} (hop : op ≠ .platformReset) (e : ErrCode) (v : Word) (draws : Nat) (he : s.err ≠ .none → e = s.err) :
      Performs s op { s with err := e, v := v, draws := draws }
  | write {off : Word} {n : Nat} {t : Target} (v : Word) (ht : checkWrite off n s = .ok t) :
      Performs s (.write off n v) (writeTarget t v s)
  | reset : Performs s .platformReset s.platformReset

/-- A bus read, alone or as one turn of a `poll`, is a view. -/
theorem performs_hostRead {op : HostOp} (hop : op ≠ .platformReset) (off : Word) (n : Nat) (s : State) :
    Performs s op (hostRead off n s) := by
  obtain ⟨c, -, e⟩ | ⟨t, -, e⟩ := hostRead_cases off n s
  · rw [e]
    exact .view hop (s.raise c).err 0 s.draws fun he => by simp [he]
  · rw [e]
    exact .view hop s.err _ _ fun _ => rfl

/-- Performing an event is one of its effects (R57, R90, R190). -/
theorem performs_perform (op : HostOp) (s : State) : Performs s op (perform op s) := by
  cases op with
  | read off n => exact performs_hostRead (by simp) off n s
  | write off n v =>
    obtain ⟨c, -, e⟩ | ⟨t, ht, e⟩ := hostWrite_cases off n v s
    · rw [perform, e]
      exact .view (by simp) (s.raise c).err s.v s.draws fun he => by simp [he]
    · rw [perform, e]
      exact .write v ht
  | poll => exact performs_hostRead (by simp) _ _ s
  | platformReset => exact .reset

/-! ### Moves -/

/-- `Moves s t`: one step takes `s` to `t` (R17, R70, R71, R191). -/
inductive Moves (s : State) : State → Prop
  | failed (c : ErrCode) (ht : engineTurn s = true) : Moves s (s.failed c)
  | completed {i : Instr} {u : State} (ht : engineTurn s = true) (hi : decode s.pending = .ok i) (hu : Completes s i u) :
      Moves s u.complete
  | idle (ht : engineTurn s = false) (hh : s.host = []) : Moves s s
  | host {op : HostOp} {rest : List HostOp} {u : State} (ht : engineTurn s = false) (hh : s.host = op :: rest)
      (hu : Performs s.countdown op u) : Moves s { u with host := hostAfter op rest u.v }

/-- A step that answers a next state is a move. -/
theorem step_moves {s t : State} (h : step s = .next t) : Moves s t := by
  obtain ⟨ht, e⟩ | ⟨ht, hh, e⟩ | ⟨ht, op, rest, hh, e⟩ := step_cases s
  · obtain ⟨i, hi, e'⟩ | ⟨x, -, e'⟩ := engineStep_cases s
    · obtain ⟨c, rfl⟩ | ⟨u, hu, rfl⟩ := exec_next (e'.symm.trans (e.symm.trans h))
      · exact .failed c ht
      · exact .completed ht hi hu
    · cases e'.symm.trans (e.symm.trans h)
      exact .failed _ ht
  · cases e.symm.trans h
    exact .idle ht hh
  · cases e.symm.trans h
    exact .host ht hh (performs_perform op s.countdown)

/-- A reset event at the head of the host's program, where it is not the engine's turn, is the next move. -/
theorem resetNext_of_host {s : State} {rest : List HostOp} (ht : engineTurn s = false)
    (hh : s.host = .platformReset :: rest) : s.ResetNext := ⟨ht, by simp [hh]⟩

/-! ### Checked writes -/

/-- A write to BIT_COUNT or HASH_COUNT passes only before CONFIG (R30, R31). -/
theorem writeRule_locked {r : Reg} {s : State} (h : writeRule (.reg r) s = .ok ()) (hr : r.lockedByConfig = true) :
    s.configured = false := by
  by_contra hc
  rw [Bool.not_eq_false] at hc
  simp only [writeRule, hr, hc, Bool.and_self, if_true] at h
  split_ifs at h

/-- A window write passes only after CONFIG (R161). -/
theorem writeRule_window {w : Nat} {s : State} (h : writeRule (.windowWord w) s = .ok ()) : s.configured = true := by
  by_contra hc
  simp [writeRule, hc] at h

section
variable (t : Target) (v : Word) (s : State)

@[simp] theorem writeTarget_params : (writeTarget t v s).params = s.params := by
  cases t with
  | reg r => cases r <;> rfl
  | itemByte a => rfl
  | itemWord a => rfl
  | windowWord w => rfl

@[simp] theorem writeTarget_configured : (writeTarget t v s).configured = s.configured := by
  cases t with
  | reg r => cases r <;> rfl
  | itemByte a => rfl
  | itemWord a => rfl
  | windowWord w => rfl

end

end Sys2Proof.Machine
end

section
/-! SUPPORT and the settling theorem. Every move keeps the invariant, layer by layer. -/

namespace Sys2Proof.Machine

/-- A command that completes keeps the invariant: INSERT sets cells below `m`, INDEX answers below `m`, and CONFIG accepts no `m`
above BIT_COUNT_MAX. -/
theorem Completes.inv {s u : State} {i : Instr} (h : Completes s i u) (hs : s.Inv) : u.Inv := by
  have ⟨hp, hwf, hitem, hbwf, hbits, hm, hraw, hidx⟩ := hs
  cases h with
  | nop => exact hs
  | hash => exact hs
  | hashPair => simpa [State.Inv, State.m] using hs
  | config hc hle =>
    have hcells : ∀ j ∈ s.bits.clearBelow s.m, j < s.params.bitCountMax := fun j hj => hbits j (List.mem_filter.mp hj).1
    exact ⟨hp, hwf, hitem, BitArray.wf_clearBelow hbwf _, hcells, fun _ => hle, nofun, hidx⟩
  | insert hc hr =>
    have hcells : ∀ j ∈ (s.insertItem s.theItem).bits, j < s.params.bitCountMax := by
      intro j hj
      rw [← BitArray.get_iff, get_insertItem, Bool.or_eq_true, decide_eq_true_eq, BitArray.get_iff] at hj
      obtain hj | ⟨hm0, hj⟩ := hj
      · exact hbits j hj
      · exact (itemIndices_lt hm0 j hj).trans_le (hm hc)
    have hwf' : (s.insertItem s.theItem).bits.wf := by
      rw [State.insertItem_bits]
      split_ifs
      · exact hbwf
      · exact BitArray.wf_setAll hbwf _
    exact ⟨hp, hwf, hitem, hwf', hcells, hm, hraw, hidx⟩
  | query hc hr =>
    exact ⟨hp, hwf, hitem, hbwf, hbits, hm, fun h => absurd h (ne_false_of_eq_true hc), hidx⟩
  | index n hc hm0 =>
    refine ⟨hp, hwf, hitem, hbwf, hbits, hm, fun h => absurd h (ne_false_of_eq_true hc), .inr ?_⟩
    exact (Nat.mod_le _ _).trans_lt (idx_lt _ _ _ _ hm0)

/-- A register write that passed its checks keeps the invariant: BIT_COUNT is written only before CONFIG. -/
theorem inv_writeReg {r : Reg} {s : State} (v : Word) (hr : writeRule (.reg r) s = .ok ()) (hs : s.Inv) :
    (writeReg r v s).Inv := by
  cases r with
  | bitCount =>
    have hc : s.configured = false := writeRule_locked hr rfl
    obtain ⟨hp, hwf, hitem, hbwf, hbits, -, hraw, -⟩ := hs
    exact ⟨hp, hwf, hitem, hbwf, hbits, fun h => absurd h (ne_true_of_eq_false hc), hraw, .inl (hraw hc).2⟩
  | id | version | cmd | status | hashCount | itemLen | seed | hashOut | h1 | h2 | idxOut => exact hs

/-- A write that passed its checks keeps the invariant: it stays within the item buffer, or sets cells below `m`. -/
theorem inv_writeTarget {off : Word} {n : Nat} {t : Target} {s : State} (v : Word) (ht : checkWrite off n s = .ok t)
    (hs : s.Inv) : (writeTarget t v s).Inv := by
  obtain ⟨hmap, -, hrule⟩ := checkWrite_ok ht
  have ⟨hp, hwf, hitem, hbwf, hbits, hm, hraw, hidx⟩ := hs
  cases t with
  | reg r => exact inv_writeReg v hrule hs
  | itemByte a =>
    have ha : a < s.params.itemMax := mapAccess_item_lt.1 hmap
    have hin : ∀ c ∈ s.item.write a (v.extractLsb' 0 8), c.1 < s.params.itemMax := fun c hc =>
      (Memory.mem_write hc).elim (fun e => e ▸ ha) (hitem c)
    exact ⟨hp, Memory.wf_write hwf _ _, hin, hbwf, hbits, hm, hraw, hidx⟩
  | itemWord a =>
    have ha : a + 3 < s.params.itemMax := mapAccess_item_lt.2 hmap
    have hin : ∀ c ∈ s.item.writeWord a v, c.1 < s.params.itemMax := fun c hc =>
      (Memory.mem_writeWord hc).elim (fun e => by omega) (hitem c)
    exact ⟨hp, Memory.wf_writeWord hwf _ _, hin, hbwf, hbits, hm, hraw, hidx⟩
  | windowWord w =>
    have hc : s.configured = true := writeRule_window hrule
    have hcells : ∀ j ∈ s.bits.setAll (windowCells s.m w v), j < s.params.bitCountMax := by
      intro j hj
      obtain hj | hj := (BitArray.mem_setAll _ _ _).mp hj
      · obtain ⟨-, -, -, hjm, -⟩ := (mem_windowCells _ _ _ _).mp hj
        exact hjm.trans_le (hm hc)
      · exact hbits j hj
    exact ⟨hp, hwf, hitem, BitArray.wf_setAll hbwf _, hcells, hm, hraw, hidx⟩

/-- The reset state meets the invariant under all valid parameters (R44). -/
theorem inv_resetWith {p : Params} (hp : p.Valid) : (State.resetWith p).Inv :=
  ⟨hp, List.Pairwise.nil, nofun, List.Pairwise.nil, nofun, nofun, fun _ => ⟨rfl, rfl⟩, .inl rfl⟩

/-- Every event from outside keeps the invariant. -/
theorem Performs.inv {s u : State} {op : HostOp} (h : Performs s op u) (hs : s.Inv) : u.Inv := by
  cases h with
  | view hop e v draws he => exact hs
  | write v ht => exact inv_writeTarget v ht hs
  | reset => exact inv_resetWith hs.1

/-- Settles O27, by the moves of the machine: the invariant speaks of no field that ending a command, raising an error, the
countdown or the host's program touch. -/
theorem stepKeepsTheInvariant : Obligations.StepKeepsTheInvariant := by
  intro s t hs h
  cases step_moves h with
  | failed c => exact hs
  | completed ht hi hu => exact hu.inv hs
  | idle => exact hs
  | host ht hh hu => exact hu.inv hs

/-- Settles O28: both reset states are `State.resetWith` of valid parameters. -/
theorem resetMeetsTheInvariant : Obligations.ResetMeetsTheInvariant :=
  ⟨inv_resetWith (by decide), fun _ hp => inv_resetWith hp⟩

end Sys2Proof.Machine
end

section
/-! SUPPORT and the settling theorems. The registers as the host reads and writes them, and a word placed in flight. -/

namespace Sys2Proof.Machine

/-! ### The engine's turn -/

/-- At the engine's turn a step is the engine's. -/
theorem step_engine {s : State} (ht : engineTurn s = true) : step s = engineStep s := by
  simp [step, nextMove, ht]

/-- A word that decodes is performed (R80 step 4). -/
theorem engineStep_of_decode {s : State} {i : Instr} (hi : decode s.pending = .ok i) : engineStep s = exec i s := by
  rw [engineStep, hi]

/-- A word that does not decode raises ILLEGAL_CMD (R80 steps 1 to 3). -/
theorem engineStep_of_illegal {s : State} {e : DecodeError} (he : decode s.pending = .error e) :
    engineStep s = .next (s.failed .illegalCmd) := by
  rw [engineStep, he]
  rfl

/-- A command in flight whose turn has come is performed (R70, R80). -/
theorem step_performs {s : State} {i : Instr} (hb : s.busy = true) (hd : s.engineDelay = 0 ∨ s.host = [])
    (hi : decode s.pending = .ok i) : step s = exec i s := by
  have ht : engineTurn s = true := by obtain h | h := hd <;> simp [engineTurn, hb, h]
  rw [step_engine ht, engineStep_of_decode hi]

/-- A table word of 32 bits decodes as the command word of that number (R81). -/
theorem decode_of_decodeTableWord {w : Nat} {i : Instr} (h : decodeTableWord 32 w = some i) :
    decode (BitVec.ofNat 32 (w % 2 ^ 32)) = .ok i := by
  unfold decodeTableWord at h
  split at h
  · next j hj => rw [hj, Option.some.inj h]
  · cases h

/-- Settles O7: a placed word is in flight with its turn come. -/
theorem placedWordIsPerformedNext : Obligations.PlacedWordIsPerformedNext := by
  intro s w i h
  refine ⟨?_, step_performs rfl (.inl rfl) (decode_of_decodeTableWord h)⟩
  have hw : BitVec.ofNat 32 (w % 2 ^ 32) = BitVec.ofNat 32 w := BitVec.eq_of_toNat_eq (by simp)
  rw [State.withFetchWord, hw, State.inFlight]

/-! ### Register writes -/

section
variable {r : Reg} {s : State} (v : Word) (hb : s.busy = false)
include hb

/-- A write to a read-only register is refused (R21). -/
theorem hostWrite_readOnly (hr : r.readOnly = true) : hostWrite r.offset 4 v s = s.raise .badAccess := by
  rw [hostWrite_reg hb, if_pos hr]

/-- A write to BIT_COUNT or HASH_COUNT of a configured filter is refused (R30, R31). -/
theorem hostWrite_locked (hr : r.readOnly = false) (hl : r.lockedByConfig = true) (hc : s.configured = true) :
    hostWrite r.offset 4 v s = s.raise .configLocked := by
  rw [hostWrite_reg hb, hr, hl, hc]
  rfl

/-- A write to any other register that is not locked takes effect (R24, R25, R30 to R33). -/
theorem hostWrite_stores (hr : r.readOnly = false) (hl : r.lockedByConfig = false ∨ s.configured = false) :
    hostWrite r.offset 4 v s = writeReg r v s := by
  have hlock : (r.lockedByConfig && s.configured) = false := by obtain h | h := hl <;> simp [h]
  rw [hostWrite_reg hb, hr, hlock, if_neg (by simp), if_neg (by simp)]

end

/-- The low half of a word, as HASH_COUNT keeps it (R31). -/
theorem extractLsb'_low_half (v : Word) : v.extractLsb' 0 16 = BitVec.ofNat 16 (v.toNat % 2 ^ 16) := by
  apply BitVec.eq_of_toNat_eq
  simp

/-- Settles O38, register by register. -/
theorem registerWritesStore : Obligations.RegisterWritesStore := by
  intro s v hb
  refine ⟨hostWrite_stores (r := .itemLen) v hb rfl (.inl rfl), hostWrite_stores (r := .seed) v hb rfl (.inl rfl),
    fun hc => ⟨hostWrite_stores (r := .bitCount) v hb rfl (.inr hc), ?_⟩,
    fun hc => ⟨hostWrite_locked (r := .bitCount) v hb rfl rfl hc, hostWrite_locked (r := .hashCount) v hb rfl rfl hc⟩, ?_⟩
  · rw [← extractLsb'_low_half]
    exact hostWrite_stores (r := .hashCount) v hb rfl (.inr hc)
  · rintro off (rfl | rfl | rfl | rfl)
    · exact hostWrite_readOnly (r := .hashOut) v hb rfl
    · exact hostWrite_readOnly (r := .h1) v hb rfl
    · exact hostWrite_readOnly (r := .h2) v hb rfl
    · exact hostWrite_readOnly (r := .idxOut) v hb rfl

/-- Settles O34: ID and VERSION are read-only constants that BUSY does not hide. -/
theorem identificationIsConstant : Obligations.IdentificationIsConstant :=
  ⟨fun _ => ⟨hostRead_reg (r := .id) (.inr rfl), hostRead_reg (r := .version) (.inr rfl)⟩,
    fun _ v hb => ⟨hostWrite_readOnly (r := .id) v hb rfl, hostWrite_readOnly (r := .version) v hb rfl⟩⟩

/-- Settles O35: an accepted CMD write is `issue`. -/
theorem cmdWriteIssuesTheCommand : Obligations.CmdWriteIssuesTheCommand :=
  ⟨fun s v hb => ⟨s.issue v, hostWrite_stores (r := .cmd) v hb rfl (.inl rfl), rfl,
      fun _ hi => step_performs rfl (.inl rfl) hi⟩,
    fun _ hb => hostRead_reg (r := .cmd) (.inl hb)⟩

/-- Settles O37, register by register. -/
theorem registersReadTheirValues : Obligations.RegistersReadTheirValues := fun _ hb =>
  ⟨hostRead_reg (r := .bitCount) (.inl hb), hostRead_reg (r := .hashCount) (.inl hb), hostRead_reg (r := .itemLen) (.inl hb),
    hostRead_reg (r := .seed) (.inl hb), hostRead_reg (r := .hashOut) (.inl hb), hostRead_reg (r := .h1) (.inl hb),
    hostRead_reg (r := .h2) (.inl hb), hostRead_reg (r := .idxOut) (.inl hb)⟩

/-! ### STATUS -/

/-- STATUS as a number: its four fields in their places (R25). -/
theorem toNat_statusWord (s : State) :
    s.statusWord.toNat = s.err.code.toNat * 2 ^ 8 + s.result.toNat * 2 ^ 2 + s.configured.toNat * 2 + s.busy.toNat := by
  have hfields : ∀ (e : BitVec 4) (r c b : Bool),
      ((e.setWidth 32 <<< 8) ||| ((BitVec.ofBool r).setWidth 32 <<< 2) ||| ((BitVec.ofBool c).setWidth 32 <<< 1) |||
        (BitVec.ofBool b).setWidth 32 : Word).toNat = e.toNat * 2 ^ 8 + r.toNat * 2 ^ 2 + c.toNat * 2 + b.toNat := by
    decide
  exact hfields _ _ _ _

/-- Settles O36: the number of each error code is R170's. -/
theorem statusReadsItsFields : Obligations.StatusReadsItsFields := by
  refine ⟨fun s => ⟨s.statusWord, s.err.code.toNat, hostRead_reg (r := .status) (.inr rfl), toNat_statusWord s, ?_⟩,
    fun _ v hb => hostWrite_stores (r := .status) v hb rfl (.inl rfl)⟩
  generalize s.err = e
  refine ⟨?_, ?_, ?_, ?_, ?_, ?_, ?_, ?_, ?_⟩ <;> rintro rfl <;> rfl

end Sys2Proof.Machine
end

section
/-! SUPPORT and the settling theorems. The frame of a command, what stops the machine, and what a step keeps of the bit cells, the
configured parameters and BUSY. -/

namespace Sys2Proof.Machine

/-! ### The frame of a command -/

/-- INSERT changes no cell at or beyond `m`: every entry of an index list is below `m` (R131). -/
theorem get_insertItem_beyond (s : State) (d : List Byte) {j : Nat} (hj : s.m ≤ j) :
    (s.insertItem d).bits.get j = s.bits.get j := by
  have hout : ¬ (s.m ≠ 0 ∧ j ∈ s.itemIndices d) := fun ⟨hm, hmem⟩ => hj.not_gt (itemIndices_lt hm j hmem)
  rw [get_insertItem, decide_eq_false hout, Bool.or_false]

/-- CONFIG changes no cell at or beyond `m` (R142). -/
theorem BitArray.get_clearBelow_beyond (b : BitArray) {m j : Nat} (hj : m ≤ j) : (b.clearBelow m).get j = b.get j := by
  rw [BitArray.get_clearBelow, decide_eq_true hj, Bool.true_and]

/-- Settles O21: a failed command changes ERR and BUSY alone, and a command that completes changes its own fields. -/
theorem commandFrame : Obligations.CommandFrame := by
  intro i s t h
  obtain ⟨c, rfl⟩ | ⟨u, hu, rfl⟩ := exec_next h
  · simp +contextual
  · cases hu with
    | nop => simp
    | config hc hm => simp +contextual [BitArray.get_clearBelow_beyond, State.m]
    | hash hr => simp
    | hashPair hr => simp
    | insert hc hr =>
      have hbeyond : ∀ j, s.bitCount.toNat ≤ j → (s.insertItem s.theItem).bits.get j = s.bits.get j := fun j hj =>
        get_insertItem_beyond s _ hj
      simpa [-State.insertItem_bits] using hbeyond
    | query hc hr => simp
    | index n hc hm => simp

/-! ### What stops the machine -/

/-- A command that reads the item answers a next state, or faults with the first unwritten cell of the item (R113, R182). -/
theorem withItem_cases (s : State) (e : List Byte → State) :
    (∃ t, withItem s e = .next t) ∨ ∃ a, itemOperand s = .unwritten a ∧ withItem s e = .fault (.unwrittenItemCell a) := by
  unfold withItem
  cases itemOperand s with
  | item d => exact .inl ⟨_, rfl⟩
  | tooLong => exact .inl ⟨_, rfl⟩
  | unwritten a => exact .inr ⟨a, rfl, rfl⟩

/-- The configured precondition passes on what its command answers, or records an error (R141). -/
theorem whenConfigured_cases (s : State) (c : StepResult) :
    (s.configured = true ∧ whenConfigured s c = c) ∨ whenConfigured s c = .next (s.failed .notConfigured) := by
  cases hc : s.configured with
  | true => exact .inl ⟨rfl, whenConfigured_true hc c⟩
  | false => exact .inr (whenConfigured_false hc c)

/-- The commands that come to read the item: INSERT and QUERY only on a configured filter (R113, R141). -/
def ReadsItem (s : State) (i : Instr) : Prop :=
  i = .hash ∨ i = .hashPair ∨ (s.configured = true ∧ (i = .insert ∨ i = .query))

/-- Every command answers a next state, or reads an unwritten item cell and faults. -/
theorem exec_cases (i : Instr) (s : State) :
    (∃ t, exec i s = .next t) ∨
    ∃ a, itemOperand s = .unwritten a ∧ ReadsItem s i ∧ exec i s = .fault (.unwrittenItemCell a) := by
  cases i with
  | nop => exact .inl ⟨_, rfl⟩
  | config =>
    simp only [exec, execConfig]
    split_ifs
    · exact .inl ⟨_, rfl⟩
    · exact .inl ⟨_, rfl⟩
    · exact .inl ⟨_, rfl⟩
  | hash => exact (withItem_cases s _).imp_right fun ⟨a, ho, e⟩ => ⟨a, ho, .inl rfl, e⟩
  | hashPair => exact (withItem_cases s _).imp_right fun ⟨a, ho, e⟩ => ⟨a, ho, .inr (.inl rfl), e⟩
  | insert =>
    obtain ⟨hc, e⟩ | e := whenConfigured_cases s (withItem s s.insertItem)
    · rw [exec, execInsert, e]
      exact (withItem_cases s _).imp_right fun ⟨a, ho, e⟩ => ⟨a, ho, .inr (.inr ⟨hc, .inl rfl⟩), e⟩
    · exact .inl ⟨_, e⟩
  | query =>
    obtain ⟨hc, e⟩ | e := whenConfigured_cases s (withItem s s.queryItem)
    · rw [exec, execQuery, e]
      exact (withItem_cases s _).imp_right fun ⟨a, ho, e⟩ => ⟨a, ho, .inr (.inr ⟨hc, .inr rfl⟩), e⟩
    · exact .inl ⟨_, e⟩
  | index n =>
    simp only [exec, execIndex, whenConfigured]
    split_ifs
    · exact .inl ⟨_, rfl⟩
    · exact .inl ⟨_, rfl⟩
    · exact .inl ⟨_, rfl⟩

/-- Every step answers a next state, or is a command at the engine's turn that reads an unwritten item cell and faults. -/
theorem step_answers (s : State) :
    (∃ t, step s = .next t) ∨
    ∃ a i, engineTurn s = true ∧ decode s.pending = .ok i ∧ itemOperand s = .unwritten a ∧ ReadsItem s i ∧
      step s = .fault (.unwrittenItemCell a) := by
  obtain ⟨ht, e⟩ | ⟨-, -, e⟩ | ⟨-, op, rest, -, e⟩ := step_cases s
  · obtain ⟨i, hi, e'⟩ | ⟨x, -, e'⟩ := engineStep_cases s
    · rw [e, e']
      exact (exec_cases i s).imp_right fun ⟨a, ho, hread, h⟩ => ⟨a, i, ht, hi, ho, hread, h⟩
    · exact .inl ⟨_, e.trans e'⟩
  · exact .inl ⟨_, e⟩
  · exact .inl ⟨_, e⟩

/-- Settles O26: a step that answers no next state is a fault at an unwritten cell of an item of legal length. -/
theorem onlyUnwrittenItemCellsStopTheMachine : Obligations.OnlyUnwrittenItemCellsStopTheMachine := by
  refine ⟨fun s r h => ?_, fun s a h => ?_⟩
  · obtain ⟨t, e⟩ | ⟨a, i, -, -, -, -, e⟩ := step_answers s
    · cases h.symm.trans e
    · cases h.symm.trans e
  · obtain ⟨t, e⟩ | ⟨b, i, hturn, hi, ho, hread, e⟩ := step_answers s
    · cases h.symm.trans e
    · cases h.symm.trans e
      obtain ⟨hlen, ha, hnone, -⟩ := itemOperand_unwritten ho
      exact ⟨hturn, ha, hlen, hnone, i, hi, hread⟩

/-! ### The bit cells -/

/-- What R39 allows a step to do to the bit cells of a configured filter: set some below `bit_count`. -/
def OnlySetsCells (s t : State) : Prop :=
  ∀ j, (s.bits.get j = true → t.bits.get j = true) ∧ (s.m ≤ j → t.bits.get j = s.bits.get j)

/-- The bit cells left as they are. -/
theorem onlySetsCells_of_bits_eq {s t : State} (h : t.bits = s.bits) : OnlySetsCells s t := fun j => by simp [h]

/-- On a configured filter a command that completes only sets cells: CONFIG does not complete, and INSERT sets. -/
theorem Completes.onlySetsCells {s u : State} {i : Instr} (h : Completes s i u) (hc : s.configured = true) :
    OnlySetsCells s u := by
  cases h with
  | config hraw => exact absurd hraw (ne_false_of_eq_true hc)
  | insert =>
    exact fun j => ⟨fun hj => by rw [get_insertItem, hj, Bool.true_or], get_insertItem_beyond s _⟩
  | nop | hash | hashPair | query | index => exact onlySetsCells_of_bits_eq (by simp)

/-- A write that passed its checks only sets cells, those of the window below `m` (R161). -/
theorem onlySetsCells_writeTarget (t : Target) (v : Word) (s : State) : OnlySetsCells s (writeTarget t v s) := by
  cases t with
  | reg r => exact onlySetsCells_of_bits_eq (by cases r <;> rfl)
  | itemByte a => exact onlySetsCells_of_bits_eq rfl
  | itemWord a => exact onlySetsCells_of_bits_eq rfl
  | windowWord w =>
    intro j
    simp only [writeTarget, BitArray.get_setAll_windowCells]
    exact ⟨fun hj => by rw [hj, Bool.true_or], fun hj => by simp [hj.not_gt]⟩

/-- Settles O29: of the moves but a reset, INSERT and a window write alone touch the cells, and they set. -/
theorem cellsAreNeverCleared : Obligations.CellsAreNeverCleared := by
  intro s t j hc hreset h
  suffices hset : OnlySetsCells s t from hset j
  cases step_moves h with
  | failed c => exact onlySetsCells_of_bits_eq rfl
  | completed ht hi hu => exact hu.onlySetsCells hc
  | idle => exact onlySetsCells_of_bits_eq rfl
  | host ht hh hu =>
    cases hu with
    | view => exact onlySetsCells_of_bits_eq rfl
    | write v hw => exact onlySetsCells_writeTarget _ v s.countdown
    | reset => exact absurd (resetNext_of_host ht hh) hreset

/-! ### The configured parameters -/

/-- A property that every step keeps holds after every run. -/
theorem run_keeps {P : State → Prop} (hP : ∀ s t, P s → step s = .next t → P t) {n : Nat} {s t : State} (hs : P s)
    (h : Sys2Proof.core.run n s = .next t) : P t := by
  induction n generalizing s with
  | zero => exact Host.Outcome.next.inj h ▸ hs
  | succ n ih =>
    obtain ⟨u, hu, hrun⟩ := run_succ_next h
    exact ih (hP s u hs hu) hrun

/-- A filter configured with `m` bits and `k` hashes, and no reset to come. -/
def ConfiguredWith (m : Word) (k : BitVec 16) (s : State) : Prop :=
  s.configured = true ∧ s.bitCount = m ∧ s.hashCount = k ∧ s.NoReset

/-- A command that completes keeps CONFIGURED set and both parameters, and takes no event from the host. -/
theorem Completes.keeps_parameters {s u : State} {i : Instr} (h : Completes s i u) :
    (s.configured = true → u.configured = true) ∧ u.bitCount = s.bitCount ∧ u.hashCount = s.hashCount ∧ u.host = s.host := by
  cases h with
  | nop | config | hash | hashPair | insert | query | index => simp

/-- A write that passed its checks on a configured filter keeps both parameters: they are locked (R30, R31). -/
theorem writeTarget_parameters {t : Target} {s : State} (v : Word) (hw : writeRule t s = .ok ())
    (hc : s.configured = true) : (writeTarget t v s).bitCount = s.bitCount ∧ (writeTarget t v s).hashCount = s.hashCount := by
  cases t with
  | reg r =>
    have hr : r.lockedByConfig ≠ true := fun hr => absurd (writeRule_locked hw hr) (ne_false_of_eq_true hc)
    cases r with
    | bitCount | hashCount => exact absurd rfl hr
    | id | version | cmd | status | itemLen | seed | hashOut | h1 | h2 | idxOut => exact ⟨rfl, rfl⟩
  | itemByte a => exact ⟨rfl, rfl⟩
  | itemWord a => exact ⟨rfl, rfl⟩
  | windowWord w => exact ⟨rfl, rfl⟩

/-- The host's program after an event holds no reset that it did not hold before. -/
theorem not_mem_hostAfter {op x : HostOp} {rest : List HostOp} (v : Word) (h : x ∉ op :: rest) : x ∉ hostAfter op rest v :=
  fun hx => h (hostAfter_subset hx)

/-- Every step keeps a configured filter configured with the same parameters (R40). -/
theorem step_keeps_configuredWith (m : Word) (k : BitVec 16) (s t : State) (hs : ConfiguredWith m k s)
    (h : step s = .next t) : ConfiguredWith m k t := by
  have ⟨hc, hm, hk, hreset⟩ := hs
  cases step_moves h with
  | failed c => exact hs
  | completed ht hi hu =>
    obtain ⟨hc', hm', hk', hh'⟩ := hu.keeps_parameters
    exact ⟨hc' hc, hm'.trans hm, hk'.trans hk, fun hx => hreset (hh' ▸ hx)⟩
  | idle => exact hs
  | @host op rest u ht hh hu =>
    have hrest : HostOp.platformReset ∉ hostAfter op rest u.v := not_mem_hostAfter _ (hh ▸ hreset)
    cases hu with
    | view => exact ⟨hc, hm, hk, hrest⟩
    | write v hw =>
      obtain ⟨-, -, hrule⟩ := checkWrite_ok hw
      obtain ⟨hm', hk'⟩ := writeTarget_parameters v hrule hc
      exact ⟨(writeTarget_configured _ _ _).trans hc, hm'.trans hm, hk'.trans hk, hrest⟩
    | reset => exact absurd (hh ▸ List.mem_cons_self) hreset

/-- Settles O30, by induction on the run for a configured filter with no reset to come. -/
theorem configuredParametersNeverChange : Obligations.ConfiguredParametersNeverChange := by
  refine ⟨fun n s t hc hreset h => ?_, fun s hc => ?_, fun s v hc hb => ?_⟩
  · obtain ⟨hc', hm, hk, -⟩ := run_keeps (step_keeps_configuredWith s.bitCount s.hashCount) ⟨hc, rfl, rfl, hreset⟩ h
    exact ⟨hc', hm, hk⟩
  · exact if_pos hc
  · exact ⟨hostWrite_locked (r := .bitCount) v hb rfl rfl hc, hostWrite_locked (r := .hashCount) v hb rfl rfl hc⟩

/-! ### BUSY -/

/-- A write that takes BUSY from 0 to 1 is a CMD write, and latches its data (R24, R26). -/
theorem writeTarget_sets_busy {t : Target} {v : Word} {s : State} (hb : s.busy = false)
    (h : (writeTarget t v s).busy = true) : t = .reg .cmd ∧ (writeTarget t v s).pending = v := by
  cases t with
  | reg r =>
    cases r with
    | cmd => exact ⟨rfl, rfl⟩
    | id | version | status | bitCount | hashCount | itemLen | seed | hashOut | h1 | h2 | idxOut =>
      exact absurd h (ne_true_of_eq_false hb)
  | itemByte a => exact absurd h (ne_true_of_eq_false hb)
  | itemWord a => exact absurd h (ne_true_of_eq_false hb)
  | windowWord w => exact absurd h (ne_true_of_eq_false hb)

/-- A step that sets BUSY is a CMD write, whose word is then in flight (R24, R26). -/
theorem step_sets_busy {s t : State} (h : step s = .next t) (hb : s.busy = false) (hb' : t.busy = true) :
    ∃ v rest, s.host = .write 0x08 4 v :: rest ∧ t.pending = v := by
  cases step_moves h with
  | failed => cases hb'
  | completed => cases hb'
  | idle => exact absurd hb' (ne_true_of_eq_false hb)
  | @host op rest u ht hh hu =>
    cases hu with
    | view => exact absurd hb' (ne_true_of_eq_false hb)
    | write v hw =>
      obtain ⟨hmap, -, -⟩ := checkWrite_ok hw
      obtain ⟨rfl, hp⟩ := writeTarget_sets_busy (s := s.countdown) hb hb'
      obtain ⟨rfl, rfl⟩ := mapAccess_eq_reg hmap
      exact ⟨v, rest, hh, hp⟩
    | reset => cases hb'

/-- The engine's step ends the command (R70). -/
theorem step_engine_busy {s t : State} (ht : engineTurn s = true) (h : step s = .next t) : t.busy = false := by
  cases step_moves h with
  | failed => rfl
  | completed => rfl
  | idle ht' => exact absurd ht' (ne_false_of_eq_true ht)
  | host ht' => exact absurd ht' (ne_false_of_eq_true ht)

/-- A step that clears BUSY is the engine's or a reset: while BUSY every write is refused (R26, R58). -/
theorem step_clears_busy {s t : State} (h : step s = .next t) (hb : s.busy = true) (hb' : t.busy = false) :
    engineTurn s = true ∨ s.ResetNext := by
  cases step_moves h with
  | failed c ht => exact .inl ht
  | completed ht => exact .inl ht
  | idle => exact absurd hb' (ne_false_of_eq_true hb)
  | host ht hh hu =>
    cases hu with
    | view => exact absurd hb' (ne_false_of_eq_true hb)
    | write v hw =>
      obtain ⟨-, hidle, -⟩ := checkWrite_ok hw
      exact absurd hidle (ne_false_of_eq_true hb)
    | reset => exact .inr (resetNext_of_host ht hh)

/-- Settles O31, from what a CMD write does and from the moves that change BUSY. -/
theorem busyFollowsTheCommand : Obligations.BusyFollowsTheCommand :=
  ⟨fun _ v hb => congrArg State.busy (hostWrite_stores (r := .cmd) v hb rfl (.inl rfl)),
    fun _ _ => step_sets_busy, fun _ _ => step_engine_busy, fun _ _ => step_clears_busy, fun _ => rfl⟩

end Sys2Proof.Machine
end

section
/-! SUPPORT and the settling theorem. What no step reads: PENDING while no command is in flight, and the bit cells before CONFIG. -/

namespace Sys2Proof.Machine

/-- The checks of a write depend only on the parameters, BUSY and CONFIGURED. -/
theorem checkWrite_congr {s t : State} (h1 : t.params = s.params) (h2 : t.busy = s.busy)
    (h3 : t.configured = s.configured) (off : Word) (n : Nat) : checkWrite off n t = checkWrite off n s := by
  simp only [checkWrite, h1, h2]
  cases mapAccess s.params off n with
  | none => rfl
  | some t => cases t <;> simp [writeRule, h3]

/-- Two moves of the host that leave the same host variable and the same state under `D` are the same under `D`. -/
theorem hostMove_congr {D : State → State} (hD : ∀ u h, D { u with host := h } = { D u with host := h })
    (hv : ∀ u, (D u).v = u.v) {op : HostOp} {s s' : State}
    (h : D (perform op s'.countdown) = D (perform op s.countdown)) (rest : List HostOp) :
    D (hostMove op rest s') = D (hostMove op rest s) := by
  have hvs : (perform op s'.countdown).v = (perform op s.countdown).v := by rw [← hv, h, hv]
  calc D (hostMove op rest s')
      = { D (perform op s'.countdown) with host := hostAfter op rest (perform op s'.countdown).v } := hD _ _
    _ = { D (perform op s.countdown) with host := hostAfter op rest (perform op s.countdown).v } := by rw [h, hvs]
    _ = D (hostMove op rest s) := (hD _ _).symm

/-- A command that reads the item answers alike where the item, its effect and its refusal are alike. -/
theorem mapNext_withItem_congr {D : State → State} {s s' : State} {e e' : List Byte → State}
    (ho : itemOperand s' = itemOperand s) (he : ∀ d, D (e' d).complete = D (e d).complete)
    (hf : D (s'.abandon .itemLen) = D (s.abandon .itemLen)) :
    mapNext D (withItem s' e') = mapNext D (withItem s e) := by
  unfold withItem
  rw [ho]
  cases itemOperand s with
  | item d => exact congrArg Host.Outcome.next (he d)
  | tooLong => exact congrArg Host.Outcome.next hf
  | unwritten a => rfl

/-- Two reads with the same checks and the same value are the same under a `D` that their outcomes are the same under. -/
theorem hostRead_congr {D : State → State} {off : Word} {n : Nat} {s s' : State}
    (hcheck : checkRead off n s' = checkRead off n s)
    (hvalue : ∀ t, checkRead off n s = .ok t → readTarget t s' = readTarget t s)
    (hfail : ∀ c, D { s'.raise c with v := 0 } = D { s.raise c with v := 0 })
    (hread : ∀ v d, D { s' with v := v, draws := d } = D { s with v := v, draws := d }) :
    D (hostRead off n s') = D (hostRead off n s) := by
  unfold hostRead
  rw [hcheck]
  cases hr : checkRead off n s with
  | error c => exact hfail c
  | ok t =>
    simp only [hvalue t hr]
    exact hread _ _

/-- Two writes with the same checks are the same under a `D` that their outcomes are the same under. -/
theorem hostWrite_congr {D : State → State} {off : Word} {n : Nat} {v : Word} {s s' : State}
    (hcheck : checkWrite off n s' = checkWrite off n s) (hfail : ∀ c, D (s'.raise c) = D (s.raise c))
    (hwrite : ∀ t, D (writeTarget t v s') = D (writeTarget t v s)) :
    D (hostWrite off n v s') = D (hostWrite off n v s) := by
  unfold hostWrite
  rw [hcheck]
  cases checkWrite off n s with
  | error c => exact hfail c
  | ok t => exact hwrite t

/-! ### PENDING -/

/-- No read shows PENDING: it is in no register (R42). -/
theorem hostRead_pending (off : Word) (n : Nat) (s : State) (c : Word) :
    (hostRead off n { s with pending := c }).dropPending = (hostRead off n s).dropPending := by
  refine hostRead_congr (checkRead_congr rfl rfl rfl off n) (fun t _ => ?_) (fun _ => rfl) (fun _ _ => rfl)
  cases t with
  | reg r => cases r <;> rfl
  | itemByte | itemWord | windowWord => rfl

/-- No write depends on PENDING, and a CMD write overwrites it (R24). -/
theorem hostWrite_pending (off : Word) (n : Nat) (v : Word) (s : State) (c : Word) :
    (hostWrite off n v { s with pending := c }).dropPending = (hostWrite off n v s).dropPending := by
  refine hostWrite_congr (checkWrite_congr rfl rfl rfl off n) (fun _ => rfl) (fun t => ?_)
  cases t with
  | reg r => cases r <;> rfl
  | itemByte | itemWord | windowWord => rfl

/-- No event reads PENDING. -/
theorem perform_pending (op : HostOp) (s : State) (c : Word) :
    (perform op { s with pending := c }).dropPending = (perform op s).dropPending := by
  cases op with
  | read off n => exact hostRead_pending off n s c
  | write off n v => exact hostWrite_pending off n v s c
  | poll => exact hostRead_pending _ _ s c
  | platformReset => rfl

/-- While no command is in flight a step does the same whatever PENDING holds (R44). -/
theorem step_pending {s : State} (hb : s.busy = false) (c : Word) :
    mapNext State.dropPending (step { s with pending := c }) = mapNext State.dropPending (step s) := by
  obtain ⟨ht, -⟩ | ⟨ht, hh, e⟩ | ⟨ht, op, rest, hh, e⟩ := step_cases s
  · exact absurd (engineTurn_busy ht) (ne_true_of_eq_false hb)
  · rw [e, step_idle (s := { s with pending := c }) ht hh]; rfl
  · rw [e, step_host (s := { s with pending := c }) ht hh]
    have hperform := perform_pending op s.countdown c
    exact congrArg Host.Outcome.next (hostMove_congr (D := State.dropPending) (fun _ _ => rfl) (fun _ => rfl) hperform rest)

/-! ### The bit cells -/

section
variable {s : State} (hc : s.configured = false) (b : BitArray)
include hc

/-- Before CONFIG, a `bit_count` within BIT_COUNT_MAX is accepted (R142). -/
theorem execConfig_of_le (hm : s.m ≤ s.params.bitCountMax) :
    execConfig s = .next ({ s with bits := s.bits.clearBelow s.m, configured := true } : State).complete := by
  rw [execConfig, if_neg (ne_true_of_eq_false hc), if_pos hm]

/-- Before CONFIG, a `bit_count` above BIT_COUNT_MAX is refused (R142). -/
theorem execConfig_of_lt (hm : s.params.bitCountMax < s.m) : execConfig s = .next (s.abandon .badConfig) := by
  rw [execConfig, if_neg (ne_true_of_eq_false hc), if_neg hm.not_ge]

/-- Before CONFIG no read shows a bit cell: the window refuses (R160). -/
theorem hostRead_bits (off : Word) (n : Nat) :
    (hostRead off n { s with bits := b }).dropBits = (hostRead off n s).dropBits := by
  refine hostRead_congr (checkRead_congr rfl rfl rfl off n) (fun t ht => ?_) (fun _ => rfl) (fun _ _ => rfl)
  cases t with
  | reg r => cases r <;> rfl
  | itemByte | itemWord => rfl
  | windowWord w =>
    obtain ⟨-, -, hrule⟩ := checkRead_ok ht
    simp [readRule, hc] at hrule

omit hc in
/-- What a write leaves beside the bit cells does not depend on them. -/
theorem hostWrite_bits (off : Word) (n : Nat) (v : Word) :
    (hostWrite off n v { s with bits := b }).dropBits = (hostWrite off n v s).dropBits := by
  refine hostWrite_congr (checkWrite_congr rfl rfl rfl off n) (fun _ => rfl) (fun t => ?_)
  cases t with
  | reg r => cases r <;> rfl
  | itemByte | itemWord | windowWord => rfl

/-- Before CONFIG no event reads a bit cell. -/
theorem perform_bits (op : HostOp) : (perform op { s with bits := b }).dropBits = (perform op s).dropBits := by
  cases op with
  | read off n => exact hostRead_bits hc b off n
  | write off n v => exact hostWrite_bits b off n v
  | poll => exact hostRead_bits hc b _ _
  | platformReset => rfl

/-- Before CONFIG the filter commands are refused, whatever the bit cells hold (R141). -/
theorem whenConfigured_bits (x y : StepResult) :
    mapNext State.dropBits (whenConfigured { s with bits := b } x) = mapNext State.dropBits (whenConfigured s y) := by
  rw [whenConfigured_false hc, whenConfigured_false (s := { s with bits := b }) hc]; rfl

/-- Before CONFIG no command reads a bit cell: INSERT, QUERY and INDEX are refused, and CONFIG only clears (R141, R142). -/
theorem exec_bits (i : Instr) :
    mapNext State.dropBits (exec i { s with bits := b }) = mapNext State.dropBits (exec i s) := by
  cases i with
  | nop => rfl
  | config =>
    change mapNext _ (execConfig _) = mapNext _ (execConfig _)
    by_cases hm : s.m ≤ s.params.bitCountMax
    · rw [execConfig_of_le hc hm, execConfig_of_le (s := { s with bits := b }) hc hm]; rfl
    · rw [execConfig_of_lt hc (not_le.mp hm), execConfig_of_lt (s := { s with bits := b }) hc (not_le.mp hm)]; rfl
  | hash => exact mapNext_withItem_congr rfl (fun _ => rfl) rfl
  | hashPair => exact mapNext_withItem_congr rfl (fun _ => rfl) rfl
  | insert | query | index n => exact whenConfigured_bits hc b _ _

/-- Before CONFIG a step does the same whatever the bit cells hold (R44). -/
theorem step_bits : mapNext State.dropBits (step { s with bits := b }) = mapNext State.dropBits (step s) := by
  obtain ⟨ht, e⟩ | ⟨ht, hh, e⟩ | ⟨ht, op, rest, hh, e⟩ := step_cases s
  · rw [e, step_engine (s := { s with bits := b }) ht]
    obtain ⟨i, hi, e'⟩ | ⟨x, hx, e'⟩ := engineStep_cases s
    · rw [e', engineStep_of_decode (s := { s with bits := b }) hi]
      exact exec_bits hc b i
    · rw [e', engineStep_of_illegal (s := { s with bits := b }) hx]; rfl
  · rw [e, step_idle (s := { s with bits := b }) ht hh]; rfl
  · rw [e, step_host (s := { s with bits := b }) ht hh]
    have hperform := perform_bits (s := s.countdown) hc b op
    exact congrArg Host.Outcome.next (hostMove_congr (D := State.dropBits) (fun _ _ => rfl) (fun _ => rfl) hperform rest)

end

/-- STATUS reads 0 after reset (R44). -/
theorem statusWord_resetWith (p : Params) : (State.resetWith p).statusWord = 0 := by
  apply BitVec.eq_of_toNat_eq
  rw [toNat_statusWord]
  simp [State.resetWith, ErrCode.code]

/-- Settles O32: the reset state's registers by evaluation, and no step reads PENDING or the cells too early. -/
theorem resetValues : Obligations.ResetValues := fun p =>
  ⟨rfl, rfl, statusWord_resetWith p, rfl, rfl, rfl, rfl, rfl, rfl, rfl, rfl, rfl, rfl, rfl, rfl, fun _ => rfl, ⟨_, rfl⟩,
    fun _ c hb => step_pending hb c, fun _ b hc => step_bits hc b⟩

end Sys2Proof.Machine
end

section
/-! SUPPORT and the settling theorems. Bus accesses: which offsets the map names, the checks in their order,
and the item window. -/

namespace Sys2Proof.Machine

/-! ### The regions of the address map -/

/-- An access to the register region names a register. -/
theorem mapRegister_eq_some {o n : Nat} {t : Target} (h : mapRegister o n = some t) : ∃ r, t = .reg r := by
  unfold mapRegister at h
  split_ifs at h
  obtain ⟨r, -, rfl⟩ := Option.map_eq_some_iff.mp h
  exact ⟨r, rfl⟩

/-- An access to the item window names a byte or a word of the item buffer. -/
theorem mapItem_eq_some {itemMax a n : Nat} {t : Target} (h : mapItem itemMax a n = some t) :
    ∃ a, t = .itemByte a ∨ t = .itemWord a := by
  unfold mapItem at h
  split_ifs at h
  · exact ⟨a, .inl (Option.some.inj h).symm⟩
  · exact ⟨a, .inr (Option.some.inj h).symm⟩

/-- An access to the bit-array window names one of its words. -/
theorem mapWindow_eq_some {b n : Nat} {t : Target} (h : mapWindow b n = some t) : ∃ w, t = .windowWord w := by
  unfold mapWindow at h
  split_ifs at h
  exact ⟨_, (Option.some.inj h).symm⟩

/-- What a mapped offset names: a register at its own offset, item bytes above the registers, or a window word (R51, R52). -/
theorem mapAccess_region {p : Params} {off : Word} {n : Nat} {t : Target} (h : mapAccess p off n = some t) :
    (∃ r, t = .reg r ∧ off = r.offset ∧ n = 4) ∨
    ((∃ a, t = .itemByte a ∨ t = .itemWord a) ∧ 0x800 ≤ off.toNat ∧ off.toNat < 0x1000) ∨
    ((∃ w, t = .windowWord w) ∧ 0x20000000 ≤ off.toNat) := by
  have hmap := h
  simp only [mapAccess] at hmap
  split_ifs at hmap with hreg hitem hwin
  · obtain ⟨r, rfl⟩ := mapRegister_eq_some hmap
    exact .inl ⟨r, rfl, mapAccess_eq_reg h⟩
  · exact .inr (.inl ⟨mapItem_eq_some hmap, hitem⟩)
  · exact .inr (.inr ⟨mapWindow_eq_some hmap, hwin.1⟩)

/-- A legal access is mapped (R55). -/
theorem mapAccess_of_legal {p : Params} (hp : p.Valid) {off : Word} {n : Nat} (h : LegalAccess p off n) :
    ∃ t, mapAccess p off n = some t :=
  Option.isSome_iff_exists.mp ((mapAccess_isSome_iff hp off n).mpr h)

/-- An access that is not legal is not mapped (R55). -/
theorem mapAccess_of_not_legal {p : Params} (hp : p.Valid) {off : Word} {n : Nat} (h : ¬ LegalAccess p off n) :
    mapAccess p off n = none :=
  Option.not_isSome_iff_eq_none.mp fun hm => h ((mapAccess_isSome_iff hp off n).mp hm)

/-! ### The checks, one lemma per outcome (R57) -/

section
variable {s : State} {off : Word} {n : Nat}

/-- An unmapped read raises BAD_ACCESS and returns 0. -/
theorem hostRead_unmapped (hm : mapAccess s.params off n = none) : hostRead off n s = { s.raise .badAccess with v := 0 } := by
  simp [hostRead, checkRead, hm]

/-- An unmapped write raises BAD_ACCESS. -/
theorem hostWrite_unmapped (v : Word) (hm : mapAccess s.params off n = none) :
    hostWrite off n v s = s.raise .badAccess := by
  simp [hostWrite, checkWrite, hm]

variable {t : Target} (hm : mapAccess s.params off n = some t)
include hm

/-- While BUSY a read that the busy rule does not let through raises BUSY and returns 0 (R58). -/
theorem hostRead_refused_busy (hb : s.busy = true) (ht : t.readableWhileBusy = false) :
    hostRead off n s = { s.raise .busy with v := 0 } := by
  simp [hostRead, checkRead, hm, hb, ht]

/-- While BUSY a mapped write raises BUSY (R58). -/
theorem hostWrite_refused_busy (v : Word) (hb : s.busy = true) : hostWrite off n v s = s.raise .busy := by
  simp [hostWrite, checkWrite, hm, hb]

/-- A read that its target's rule refuses records that error and returns 0. -/
theorem hostRead_refused {c : ErrCode} (hb : s.busy = false) (hr : readRule t s = .error c) :
    hostRead off n s = { s.raise c with v := 0 } := by
  simp [hostRead, checkRead, hm, hb, hr]

/-- A write that its target's rule refuses records that error. -/
theorem hostWrite_refused {c : ErrCode} (v : Word) (hb : s.busy = false) (hr : writeRule t s = .error c) :
    hostWrite off n v s = s.raise c := by
  simp [hostWrite, checkWrite, hm, hb, hr]

/-- Of the mapped offsets only those of ID, VERSION and STATUS can be read while BUSY (R58). -/
theorem readableWhileBusy_mapped : t.readableWhileBusy = true ↔ off = 0x00 ∨ off = 0x04 ∨ off = 0x0C := by
  have hlow : 0x800 ≤ off.toNat → ¬ (off = 0x00 ∨ off = 0x04 ∨ off = 0x0C) := by
    rintro h (rfl | rfl | rfl) <;> simp at h
  obtain ⟨r, rfl, rfl, -⟩ | ⟨⟨a, ht⟩, ho, -⟩ | ⟨⟨w, rfl⟩, ho⟩ := mapAccess_region hm
  · cases r <;> decide
  · refine iff_of_false ?_ (hlow ho)
    obtain rfl | rfl := ht <;> exact Bool.false_ne_true
  · exact iff_of_false Bool.false_ne_true (hlow (le_trans (by decide) ho))

/-- A mapped target's rule for reads, by its offset: the window needs a configured filter (R160). -/
theorem readRule_mapped :
    readRule t s = if s.configured = false ∧ 0x20000000 ≤ off.toNat then .error .notConfigured else .ok () := by
  obtain ⟨r, rfl, rfl, -⟩ | ⟨⟨a, ht⟩, -, ho⟩ | ⟨⟨w, rfl⟩, ho⟩ := mapAccess_region hm
  · cases r <;> simp [readRule, Reg.offset]
  · rw [if_neg (by omega)]
    obtain rfl | rfl := ht <;> rfl
  · cases hc : s.configured <;> simp [readRule, hc, ho]

/-- A mapped target's rule for writes, by its offset: read-only and locked registers, and the window (R21, R30, R31, R161). -/
theorem writeRule_mapped :
    writeRule t s =
      if off.toNat ∈ [0x00, 0x04, 0x20, 0x24, 0x28, 0x2C] then .error .badAccess
      else if s.configured = true ∧ off.toNat ∈ [0x10, 0x14] then .error .configLocked
      else if s.configured = false ∧ 0x20000000 ≤ off.toNat then .error .notConfigured
      else .ok () := by
  obtain ⟨r, rfl, rfl, -⟩ | ⟨⟨a, ht⟩, ho, hend⟩ | ⟨⟨w, rfl⟩, ho⟩ := mapAccess_region hm
  · cases r <;> simp [writeRule, Reg.offset, Reg.readOnly, Reg.lockedByConfig]
  · rw [if_neg (by simp; omega), if_neg (by simp; omega), if_neg (by omega)]
    obtain rfl | rfl := ht <;> rfl
  · rw [if_neg (by simp; omega), if_neg (by simp; omega)]
    cases hc : s.configured <;> simp [writeRule, hc, ho]

end

/-- Settles O39: the map is the legal accesses, and an unmapped access raises BAD_ACCESS. -/
theorem illegalAccessesAreRefused : Obligations.IllegalAccessesAreRefused := by
  intro s off n v hp
  refine ⟨(mapAccess_isSome_iff hp off n).symm, fun h => ?_⟩
  have hm := mapAccess_of_not_legal hp h
  exact ⟨hostRead_unmapped hm, hostWrite_unmapped v hm⟩

/-- Settles O40: the busy rule, by the offsets it lets through. -/
theorem busyRefusesOtherAccesses : Obligations.BusyRefusesOtherAccesses := by
  intro s off n v hp hb hl
  obtain ⟨t, hm⟩ := mapAccess_of_legal hp hl
  have hpass := readableWhileBusy_mapped hm
  refine ⟨hostWrite_refused_busy hm v hb, fun h0 h4 hC => ?_, fun h => ?_⟩
  · exact hostRead_refused_busy hm hb (Bool.eq_false_iff.mpr fun ht => (hpass.mp ht).elim h0 (Or.elim · h4 hC))
  · have ht := hpass.mpr h
    cases t with
    | reg r =>
      obtain ⟨rfl, rfl⟩ := mapAccess_eq_reg hm
      exact ⟨_, hostRead_reg (.inr ht)⟩
    | itemByte | itemWord | windowWord => cases ht

/-- Settles O41: the first check that fails decides, by the target's offset. -/
theorem accessChecksInOrder : Obligations.AccessChecksInOrder := by
  intro s off n v hp
  refine ⟨fun hl => (illegalAccessesAreRefused s off n v hp).2 hl |>.symm, fun hl hb => ?_, fun hl hb => ?_⟩
  · obtain ⟨hw, hr, -⟩ := busyRefusesOtherAccesses s off n v hp hb hl
    exact ⟨hw, hr⟩
  obtain ⟨t, hm⟩ := mapAccess_of_legal hp hl
  have hread := readRule_mapped hm
  have hwrite := writeRule_mapped hm
  refine ⟨fun ho => ?_, fun hc ho => ?_, fun hc ho => ?_, fun hro hlock hwin => ⟨t, hm, ?_⟩, fun hwin => ⟨t, hm, ?_⟩⟩
  · rw [if_pos ho] at hwrite
    exact hostWrite_refused hm v hb hwrite
  · rw [if_neg (by simp at ho ⊢; omega), if_pos ⟨hc, ho⟩] at hwrite
    exact hostWrite_refused hm v hb hwrite
  · rw [if_neg (by simp; omega), if_neg (by simp [hc]), if_pos ⟨hc, ho⟩] at hwrite
    rw [if_pos ⟨hc, ho⟩] at hread
    exact ⟨hostWrite_refused hm v hb hwrite, hostRead_refused hm hb hread⟩
  · rw [if_neg hro, if_neg fun h => hlock h.1 h.2, if_neg fun h => (hwin h.1).not_ge h.2] at hwrite
    exact hostWrite_ok hm hb hwrite
  · rw [if_neg fun h => (hwin h.1).not_ge h.2] at hread
    exact hostRead_ok hm (.inl hb) hread

/-! ### The item window (R53) -/

/-- A bus read of a written cell gives its byte and draws nothing. -/
theorem Memory.busRead_written {m : Memory} {a : Nat} {x : Byte} (h : m.read a = some x) (draws : Nat) :
    m.busRead a draws = (x, draws) := by
  simp [busRead, h]

/-- A bus read of an unwritten cell draws a free byte. -/
theorem Memory.busRead_unwritten {m : Memory} {a : Nat} (h : m.read a = none) (draws : Nat) :
    m.busRead a draws = (Config.freeByte draws, draws + 1) := by
  simp [busRead, h]

/-- The bytes of four bytes side by side. -/
theorem extractLsb'_append_bytes (x0 x1 x2 x3 : Byte) :
    (x3 ++ x2 ++ x1 ++ x0 : Word).extractLsb' 0 8 = x0 ∧ (x3 ++ x2 ++ x1 ++ x0 : Word).extractLsb' 8 8 = x1 ∧
    (x3 ++ x2 ++ x1 ++ x0 : Word).extractLsb' 16 8 = x2 ∧ (x3 ++ x2 ++ x1 ++ x0 : Word).extractLsb' 24 8 = x3 := by
  have := x0.isLt
  have := x1.isLt
  have := x2.isLt
  have := x3.isLt
  refine ⟨?_, ?_, ?_, ?_⟩ <;> apply BitVec.eq_of_toNat_eq <;>
    rw [BitVec.extractLsb'_toNat, toNat_append_bytes, Nat.shiftRight_eq_div_pow] <;> omega

/-- A word read is four byte reads side by side, each drawing where the one before left off. -/
theorem Memory.busReadWord_eq_append (m : Memory) (a draws : Nat) :
    ∃ d1 d2 d3 d4, m.busReadWord a draws =
      ((m.busRead (a + 3) d3).1 ++ (m.busRead (a + 2) d2).1 ++ (m.busRead (a + 1) d1).1 ++ (m.busRead a draws).1, d4) :=
  ⟨_, _, _, _, rfl⟩

/-- Byte `b` of a word read is a read of cell `a + b`. -/
theorem Memory.extractLsb'_busReadWord (m : Memory) (a draws : Nat) {b : Nat} (hb : b < 4) :
    ∃ d, (m.busReadWord a draws).1.extractLsb' (8 * b) 8 = (m.busRead (a + b) d).1 := by
  obtain ⟨d1, d2, d3, d4, hword⟩ := m.busReadWord_eq_append a draws
  obtain ⟨h0, h1, h2, h3⟩ := extractLsb'_append_bytes (m.busRead a draws).1 (m.busRead (a + 1) d1).1
    (m.busRead (a + 2) d2).1 (m.busRead (a + 3) d3).1
  rw [hword]
  interval_cases b
  · exact ⟨draws, h0⟩
  · exact ⟨d1, h1⟩
  · exact ⟨d2, h2⟩
  · exact ⟨d3, h3⟩

/-- Settles O42, from the laws of the item buffer. -/
theorem itemWindowHoldsBytes : Obligations.ItemWindowHoldsBytes := by
  intro s a hp hb ha
  have hbyte := mapAccess_itemByte hp ha
  have hword := mapAccess_itemWord hp ha
  refine ⟨fun v => ⟨_, hostWrite_ok hbyte hb rfl, fun b => Memory.read_write _ _ _ _⟩, fun x hx => ?_, fun hx => ?_,
    fun h4 v => ⟨_, hostWrite_ok (hword h4) hb rfl, fun b => Memory.read_writeWord _ _ _ _⟩,
    fun h4 x0 x1 x2 x3 h0 h1 h2 h3 => ⟨x3 ++ x2 ++ x1 ++ x0, ?_, toNat_append_bytes x0 x1 x2 x3⟩,
    fun h4 => ⟨_, _, hostRead_ok (hword h4) (.inl hb) rfl, fun b hb4 x hx => ?_⟩⟩
  · rw [hostRead_ok hbyte (.inl hb) rfl, readTarget, Memory.busRead_written hx]
  · rw [hostRead_ok hbyte (.inl hb) rfl, readTarget, Memory.busRead_unwritten hx]
  · rw [hostRead_ok (hword h4) (.inl hb) rfl]
    simp [readTarget, Memory.busReadWord, Memory.busRead_written, h0, h1, h2, h3]
  · obtain ⟨d, hd⟩ := s.item.extractLsb'_busReadWord a s.draws hb4
    rw [readTarget, hd, Memory.busRead_written hx]

/-! ### Reads have no side effect (R59) -/

/-- No target shows the host's variable. -/
theorem readTarget_v (t : Target) (s : State) (w : Word) : readTarget t { s with v := w } = readTarget t s := by
  cases t with
  | reg r => cases r <;> rfl
  | itemByte | itemWord | windowWord => rfl

/-- A failed read returns 0. -/
theorem hostRead_v_of_error {off : Word} {n : Nat} {s : State} {c : ErrCode} (h : checkRead off n s = .error c) :
    (hostRead off n s).v = 0 := by
  rw [hostRead, h]

/-- A read that passes its checks returns its target's value. -/
theorem hostRead_v_of_ok {off : Word} {n : Nat} {s : State} {t : Target} (h : checkRead off n s = .ok t) :
    (hostRead off n s).v = (readTarget t s).1 := by
  rw [hostRead, h]

/-- Settles O46: the second read meets the same checks, and a target shows only what the first read left as it was. -/
theorem readsHaveNoSideEffect : Obligations.ReadsHaveNoSideEffect := by
  intro s off n
  obtain ⟨c, hcheck, hread⟩ | ⟨t, hcheck, hread⟩ := hostRead_cases off n s
  · rw [hread]
    exact ⟨⟨(s.raise c).err, 0, s.draws, rfl, fun _ => rfl⟩,
      fun _ => hostRead_v_of_error ((checkRead_congr rfl rfl rfl off n).trans hcheck)⟩
  · rw [hread]
    refine ⟨⟨s.err, _, _, rfl, fun h => absurd rfl h⟩, fun hd => ?_⟩
    have hdraws : (readTarget t s).2 = s.draws := hd
    rw [hdraws]
    exact (hostRead_v_of_ok ((checkRead_congr rfl rfl rfl off n).trans hcheck)).trans
      (congrArg Prod.fst (readTarget_v t s _))

end Sys2Proof.Machine
end

section
/-! SUPPORT and the settling theorems. Whose move it is, and what a host access can do before the engine's turn. -/

namespace Sys2Proof.Machine

/-! ### The engine's turn and the host's (R70, R71, R75) -/

/-- The engine's turn, in the terms of the statements. -/
theorem engineTurn_iff (s : State) : engineTurn s = true ↔ s.busy = true ∧ (s.engineDelay = 0 ∨ s.host = []) := by
  simp [engineTurn]

/-- Settles O6, by the two answers of the engine's step. -/
theorem stepPerformsDecodedCommand : Obligations.StepPerformsDecodedCommand := by
  intro s hb hd
  have hstep := step_engine ((engineTurn_iff s).mpr ⟨hb, hd⟩)
  exact ⟨fun i hi => hstep.trans (engineStep_of_decode hi), fun e he => hstep.trans (engineStep_of_illegal he)⟩

/-- After any event but a poll the rest of the program follows. -/
theorem hostAfter_of_ne_poll {op : HostOp} (h : op ≠ .poll) (rest : List HostOp) (v : Word) : hostAfter op rest v = rest := by
  cases op with
  | poll => exact absurd rfl h
  | read | write | platformReset => rfl

/-- A poll that read a 0 in bit 0 is done (R91). -/
theorem hostAfter_poll_done (rest : List HostOp) {v : Word} (h : v.getLsbD 0 = false) : hostAfter .poll rest v = rest := by
  rw [hostAfter, h, if_neg Bool.false_ne_true]

/-- A poll that read a 1 in bit 0 starts over (R91). -/
theorem hostAfter_poll_again (rest : List HostOp) {v : Word} (h : v.getLsbD 0 = true) :
    hostAfter .poll rest v = .poll :: rest := by
  rw [hostAfter, if_pos h]

/-- Settles O8: what follows an event is the rest of the program, but for a poll that read a 1. -/
theorem stepTakesTheHostsMove : Obligations.StepTakesTheHostsMove := by
  refine ⟨fun s hb hh => step_idle (by simp [engineTurn, hb]) hh,
    fun s op rest hd hh => ⟨perform op s.countdown, rfl, ?_⟩⟩
  have ht : engineTurn s = false := by
    rw [Bool.eq_false_iff, Ne, engineTurn_iff, hh]
    rintro ⟨hb, h0 | hnil⟩
    · obtain hd | hd := hd
      · exact absurd hb (ne_true_of_eq_false hd)
      · exact hd h0
    · cases hnil
  rw [step_host ht hh, hostMove]
  refine ⟨fun hop => ?_, ?_, ?_⟩
  · rw [hostAfter_of_ne_poll hop]
  · rintro rfl hv
    rw [hostAfter_poll_done rest hv]
  · rintro rfl hv
    rw [hostAfter_poll_again rest hv]

/-! ### Before the engine's turn (R58, R73, R196) -/

/-- A bus read while BUSY changes only ERR and the host's variable: what it may read draws no free byte. -/
theorem hostRead_while_busy {s : State} (hb : s.busy = true) (off : Word) (n : Nat) :
    ∃ e v, hostRead off n s = { s with err := e, v := v } := by
  obtain ⟨c, -, h⟩ | ⟨t, hcheck, h⟩ := hostRead_cases off n s
  · exact ⟨_, _, h⟩
  · obtain ⟨-, hpass, -⟩ := checkRead_ok hcheck
    cases t with
    | reg r => exact ⟨_, _, h⟩
    | itemByte | itemWord | windowWord => cases hpass hb

/-- A bus write while BUSY changes only ERR. -/
theorem hostWrite_while_busy {s : State} (hb : s.busy = true) (off : Word) (n : Nat) (v : Word) :
    ∃ e, hostWrite off n v s = { s with err := e } := by
  obtain ⟨c, -, h⟩ | ⟨t, hcheck, -⟩ := hostWrite_cases off n v s
  · exact ⟨_, h⟩
  · obtain ⟨-, hidle, -⟩ := checkWrite_ok hcheck
    exact absurd hidle (ne_false_of_eq_true hb)

/-- An event while BUSY that is no platform reset changes only ERR and the host's variable. -/
theorem perform_while_busy {s : State} {op : HostOp} (hb : s.busy = true) (hop : op ≠ .platformReset) :
    ∃ e v, perform op s = { s with err := e, v := v } := by
  cases op with
  | read off n => exact hostRead_while_busy hb off n
  | write off n v =>
    obtain ⟨e, h⟩ := hostWrite_while_busy hb off n v
    exact ⟨e, s.v, h⟩
  | poll => exact hostRead_while_busy hb _ _
  | platformReset => exact absurd rfl hop

/-- `Waits s t`: `t` is `s` one host access later, the command still in flight with its operands (R73). -/
structure Waits (s t : State) : Prop where
  frame : t = { s with err := t.err, v := t.v, host := t.host, engineDelay := s.engineDelay - 1 }
  host : t.host ⊆ s.host

/-- Before the engine's turn a step that is no platform reset waits. -/
theorem step_waits {s : State} (hb : s.busy = true) (ht : engineTurn s = false) (hr : ¬ s.ResetNext) :
    ∃ t, step s = .next t ∧ Waits s t := by
  obtain ⟨ht', -⟩ | ⟨-, hh, -⟩ | ⟨-, op, rest, hh, e⟩ := step_cases s
  · exact absurd ht' (ne_true_of_eq_false ht)
  · exact absurd ((engineTurn_iff s).mpr ⟨hb, .inr hh⟩) (ne_true_of_eq_false ht)
  · have hop : op ≠ .platformReset := fun h => hr (resetNext_of_host ht (h ▸ hh))
    obtain ⟨err, v, hperform⟩ := perform_while_busy (s := s.countdown) hb hop
    refine ⟨_, e, ?_, ?_⟩
    · simp only [hostMove, hperform]
      simp [State.countdown, hb]
    · intro x hx
      rw [hh]
      exact hostAfter_subset hx

/-- Settles O47: such a step waits. -/
theorem operandsAreStableWhileBusy : Obligations.OperandsAreStableWhileBusy := by
  intro s t hb ht hr h
  obtain ⟨u, hu, hwaits⟩ := step_waits hb ht hr
  cases h.symm.trans hu
  exact hwaits.frame

section
variable {s t : State} (h : Waits s t)
include h

theorem Waits.busy : t.busy = s.busy := by rw [h.frame]
theorem Waits.pending : t.pending = s.pending := by rw [h.frame]
theorem Waits.engineDelay : t.engineDelay = s.engineDelay - 1 := by rw [h.frame]
theorem Waits.noReset (hs : s.NoReset) : t.NoReset := fun hx => hs (h.host hx)

end

/-- With no reset to come the next event is none. -/
theorem not_resetNext {s : State} (h : s.NoReset) : ¬ s.ResetNext :=
  fun ⟨_, hx⟩ => h (List.mem_of_mem_head? hx)

/-- Settles O49, by induction on the countdown: each step before the engine's turn counts it down. -/
theorem engineStepComes : Obligations.EngineStepComes := by
  intro s hb hs
  induction hd : s.engineDelay generalizing s with
  | zero =>
    have ht : engineTurn s = true := (engineTurn_iff s).mpr ⟨hb, .inl hd⟩
    exact ⟨0, le_rfl, s, run_zero s, ht, rfl, fun _ => step_engine_busy ht⟩
  | succ d ih =>
    cases ht : engineTurn s with
    | true => exact ⟨0, Nat.zero_le _, s, run_zero s, ht, rfl, fun _ => step_engine_busy ht⟩
    | false =>
      obtain ⟨u, hu, hwaits⟩ := step_waits hb ht (not_resetNext hs)
      obtain ⟨n, hn, t, hrun, ht, hp, hend⟩ :=
        ih u (hwaits.busy.trans hb) (hwaits.noReset hs) (by rw [hwaits.engineDelay, hd]; rfl)
      exact ⟨n + 1, by omega, t, (run_succ_of_step hu).trans hrun, ht, hp.trans hwaits.pending, hend⟩

/-! ### The result does not depend on the host's view (R72, R73, I11) -/

/-- A command that branches answers alike where the condition is the same and the branches are alike. -/
theorem mapNext_ite_congr {D : State → State} {p : Prop} [Decidable p] {x x' y y' : StepResult}
    (hx : mapNext D x' = mapNext D x) (hy : mapNext D y' = mapNext D y) :
    mapNext D (if p then x' else y') = mapNext D (if p then x else y) := by
  by_cases hp : p
  · rw [if_pos hp, if_pos hp, hx]
  · rw [if_neg hp, if_neg hp, hy]

section
variable (s : State) (e : ErrCode) (v : Word) (l : List HostOp) (d : Nat)

/-- No command reads ERR, the host's variable and program, or the countdown: each branches on fields they leave alone. -/
theorem exec_hostView (i : Instr) :
    mapNext State.dropHostView (exec i { s with err := e, v := v, host := l, engineDelay := d }) =
      mapNext State.dropHostView (exec i s) := by
  cases i with
  | nop => rfl
  | config => exact mapNext_ite_congr rfl (mapNext_ite_congr rfl rfl)
  | hash | hashPair => exact mapNext_withItem_congr rfl (fun _ => rfl) rfl
  | insert | query => exact mapNext_ite_congr (mapNext_withItem_congr rfl (fun _ => rfl) rfl) rfl
  | index n => exact mapNext_ite_congr (mapNext_ite_congr rfl rfl) rfl

/-- Nor does the engine's step read them. -/
theorem engineStep_hostView :
    mapNext State.dropHostView (engineStep { s with err := e, v := v, host := l, engineDelay := d }) =
      mapNext State.dropHostView (engineStep s) := by
  dsimp only [engineStep]
  cases decode s.pending with
  | ok i => exact exec_hostView s e v l d i
  | error x => rfl

end

/-- The engine's step one host access later gives the same result. -/
theorem Waits.same_result {s t : State} (h : Waits s t) :
    mapNext State.dropHostView (engineStep t) = mapNext State.dropHostView (engineStep s) := by
  rw [h.frame]
  exact engineStep_hostView s _ _ _ _

/-- With no command in flight and no host event left every step idles. -/
theorem step_keeps_idle (s t : State) (hs : s.busy = false ∧ s.host = []) (h : step s = .next t) :
    t.busy = false ∧ t.host = [] := by
  have ht : engineTurn s = false := by simp [engineTurn, hs.1]
  cases (step_idle ht hs.2).symm.trans h
  exact hs

/-- The engine's step takes no event from the host. -/
theorem step_engine_host {s t : State} (ht : engineTurn s = true) (h : step s = .next t) : t.host = s.host := by
  cases step_moves h with
  | failed => rfl
  | completed _ _ hu =>
    obtain ⟨-, -, -, hh⟩ := hu.keeps_parameters
    exact hh
  | idle ht' => exact absurd ht' (ne_false_of_eq_true ht)
  | host ht' => exact absurd ht' (ne_false_of_eq_true ht)

/-- Settles O48, by induction on the run: each access waits, and an engine that moved first found no host event left, so BUSY
would be 0 at the end. -/
theorem scheduleDoesNotChangeTheResult : Obligations.ScheduleDoesNotChangeTheResult := by
  intro n s t hb hs hn hrun hbt
  induction n generalizing s with
  | zero => rw [Host.Outcome.next.inj hrun]
  | succ n ih =>
    obtain ⟨u, hu, hrun⟩ := run_succ_next hrun
    cases ht : engineTurn s with
    | true =>
      have hh : s.host = [] := ((engineTurn_iff s).mp ht).2.resolve_left (by omega)
      have ⟨hidle, _⟩ := run_keeps step_keeps_idle ⟨step_engine_busy ht hu, (step_engine_host ht hu).trans hh⟩ hrun
      exact absurd hidle (ne_false_of_eq_true hbt)
    | false =>
      obtain ⟨u', hu', hwaits⟩ := step_waits hb ht (not_resetNext hs)
      cases hu.symm.trans hu'
      have hn' : n ≤ u.engineDelay := by rw [hwaits.engineDelay]; omega
      exact (ih u (hwaits.busy.trans hb) (hwaits.noReset hs) hn' hrun).trans hwaits.same_result

end Sys2Proof.Machine
end

section
/-! SUPPORT and the settling theorems. The command word and its command, as numbers: decoding and encoding agree on them
(spec/30_encoding.md R80 to R86). -/

namespace Sys2Proof

/-- The number a command carries in IMM16: INDEX's `i`, 0 for every other command (R82, R83). -/
def Instr.operand : Instr → Nat
  | .index i => i
  | .nop | .config | .hash | .hashPair | .insert | .query => 0

/-- A command has an encoding exactly when its operand fits IMM16 (R83). -/
theorem wellFormed_iff (i : Instr) : i.wellFormed = true ↔ i.operand ≤ 65535 := by
  cases i <;> simp [Instr.wellFormed, Instr.operand]

/-- A row's number is its opcode, and 0x7 to 0xF are reserved (R86). -/
theorem rowNumber_le (i : Instr) : rowNumber i ≤ 6 := by cases i <;> simp [rowNumber]

/-- The word of a well-formed command as a number: `IMM16 * 2^16 + OP` (R82). -/
theorem toNat_encode {i : Instr} (h : i.wellFormed = true) : (encode i).toNat = i.operand * 65536 + rowNumber i := by
  cases i with
  | nop | config | hash | hashPair | insert | query => exact toNat_commandWord _ _
  | index n =>
    have hn : n % 65536 = n := Nat.mod_eq_of_lt (Nat.lt_succ_of_le ((wellFormed_iff _).mp h))
    rw [encode, toNat_commandWord, BitVec.toNat_ofNat, hn]
    rfl

section
variable {c : Word}

/-! ### R80's steps, one lemma per outcome -/

/-- Step 1: a word with a bit of RES set. -/
theorem decode_reservedBits (hres : c.toNat / 16 % 4096 ≠ 0) : decode c = .error .reservedBits := by
  rw [decode_eq, if_pos hres]

variable (hres : c.toNat / 16 % 4096 = 0)
include hres

/-- Step 2: a word with a reserved opcode. -/
theorem decode_reservedOpcode (hop : 7 ≤ c.toNat % 16) : decode c = .error .reservedOpcode := by
  rw [decode_eq, if_neg (not_not_intro hres), if_pos hop]

/-- Step 3: a word with an immediate on another command than INDEX. -/
theorem decode_strayImmediate (hop : c.toNat % 16 < 6) (himm : c.toNat / 65536 ≠ 0) :
    decode c = .error .strayImmediate := by
  rw [decode_eq, if_neg (not_not_intro hres), if_neg (by omega), if_pos ⟨hop.ne, himm⟩]

/-- Step 4: a word with the opcode and the operand of a command. -/
theorem decode_of_fields {i : Instr} (hop : c.toNat % 16 = rowNumber i) (himm : c.toNat / 65536 = i.operand) :
    decode c = .ok i := by
  rw [decode_eq, hres, hop, himm]
  cases i <;> simp [rowNumber, Instr.operand]

end

/-- A word decodes to a command exactly when it is that command's number: the four steps of R80 leave no other word. -/
theorem decode_eq_ok_iff {c : Word} {i : Instr} : decode c = .ok i ↔ c.toNat = i.operand * 65536 + rowNumber i := by
  constructor
  · intro h
    rw [decode_eq] at h
    split_ifs at h with hres hop himm
    generalize hk : c.toNat % 16 = k at *
    interval_cases k <;> cases h <;> simp only [Instr.operand, rowNumber] <;> omega
  · intro h
    have hrow := rowNumber_le i
    exact decode_of_fields (by omega) (by omega) (by omega)

/-- Settles O1: a well-formed command's word is its number. -/
theorem decodeUndoesEncode : Obligations.DecodeUndoesEncode := fun _ h => decode_eq_ok_iff.mpr (toNat_encode h)

/-- Settles O2: the number of the command is below 2^32, so its operand fits, and its word is the same number. -/
theorem encodeUndoesDecode : Obligations.EncodeUndoesDecode := by
  intro c i h
  have hc : c.toNat = i.operand * 65536 + rowNumber i := decode_eq_ok_iff.mp h
  have hwf : i.wellFormed = true := (wellFormed_iff i).mpr (by omega)
  exact ⟨hwf, BitVec.eq_of_toNat_eq ((toNat_encode hwf).trans hc.symm)⟩

/-- Settles O5: the nine words are their commands' numbers, and each illegal word fails the step of R80 it names. -/
theorem encodingExamples : Obligations.EncodingExamples :=
  ⟨decode_eq_ok_iff.mpr rfl, decode_eq_ok_iff.mpr rfl, decode_eq_ok_iff.mpr rfl, decode_eq_ok_iff.mpr rfl,
    decode_eq_ok_iff.mpr rfl, decode_eq_ok_iff.mpr rfl, decode_eq_ok_iff.mpr rfl, decode_eq_ok_iff.mpr rfl,
    decode_eq_ok_iff.mpr rfl, rfl, rfl, decode_strayImmediate (by decide) (by decide) (by decide),
    decode_reservedBits (by decide), decode_reservedOpcode (by decide) (by decide)⟩

/-! ### The opcode map (R86) -/

/-- The low half of a word as a number. -/
theorem toNat_and_low_half (c : Word) : (c &&& 0x0000FFFF).toNat = c.toNat % 65536 := by
  rw [BitVec.toNat_and]
  exact Nat.and_two_pow_sub_one_eq_mod _ 16

/-- Every row's mask covers the low half of the word, so a selected word's low half is the row's. -/
theorem OpcodeRow.low_half_of_selects {r : OpcodeRow} (hr : r ∈ opcodeRows) {c : Word} (h : r.selects c = true) :
    c &&& 0x0000FFFF = r.pattern := by
  have hmask : ∀ r ∈ opcodeRows, r.mask &&& 0x0000FFFF = 0x0000FFFF := by decide
  have hpattern : ∀ r ∈ opcodeRows, r.pattern &&& 0x0000FFFF = r.pattern := by decide
  rw [← hpattern r hr, ← hmask r hr, ← eq_of_beq h, BitVec.and_assoc, ← BitVec.and_assoc r.mask, BitVec.and_self]

/-- Two rows that select the same word are the same row: the patterns differ. -/
theorem OpcodeRow.eq_of_selects {r q : OpcodeRow} (hr : r ∈ opcodeRows) (hq : q ∈ opcodeRows) {c : Word}
    (h : r.selects c = true) (h' : q.selects c = true) : r = q := by
  have hinj : ∀ r ∈ opcodeRows, ∀ q ∈ opcodeRows, r.pattern = q.pattern → r = q := by decide
  exact hinj r hr q hq ((low_half_of_selects hr h).symm.trans (low_half_of_selects hq h'))

/-- A row with a full mask selects its pattern alone: the word of a command without an operand. -/
theorem decode_of_full_mask {c p : Word} {i : Instr} (h : c &&& 0xFFFFFFFF = p) (hp : decode p = .ok i) :
    decode c = .ok i := by
  have hc : c &&& 0xFFFFFFFF = c := BitVec.and_allOnes
  rwa [← hc, h]

/-- INDEX's row selects by the low half, and the high half is the operand. -/
theorem decode_of_index_mask {c : Word} (h : c &&& 0x0000FFFF = 0x00000006) : decode c = .ok (.index (c >>> 16).toNat) := by
  have hlow : c.toNat % 65536 = 6 := by rw [← toNat_and_low_half, h]; rfl
  have himm : (c >>> 16).toNat = c.toNat / 65536 := by rw [BitVec.toNat_ushiftRight, Nat.shiftRight_eq_div_pow]
  rw [himm]
  exact decode_of_fields (by omega) (by simp only [rowNumber]; omega) rfl

/-- Every command's word selects the command's row (R86). -/
theorem encode_selects (i : Instr) : ∃ r ∈ opcodeRows, r.selects (encode i) = true := by
  have hrow : Laws.EncodesItsRow.Statement i := by
    cases i with
    | nop => exact Laws.EncodesItsRow.nop
    | config => exact Laws.EncodesItsRow.config
    | hash => exact Laws.EncodesItsRow.hash
    | hashPair => exact Laws.EncodesItsRow.hashPair
    | insert => exact Laws.EncodesItsRow.insert
    | query => exact Laws.EncodesItsRow.query
    | index n => exact Laws.EncodesItsRow.index n
  obtain ⟨r, hr, hsel⟩ := hrow
  exact ⟨r, List.mem_of_getElem? hr, hsel⟩

end Sys2Proof
end

section
/-! SUPPORT and the settling theorems. The engine's dispatch by the bits of PENDING (spec/30_encoding.md R80, R86). -/

namespace Sys2Proof.Machine

/-- Settles O3: the rows' patterns tell them apart, a selected word is its command's, and a word that decodes is the word of its
command, which a row selects. -/
theorem opcodeMapSelectsOneRow : Obligations.OpcodeMapSelectsOneRow := by
  refine ⟨fun c r hr q hq => OpcodeRow.eq_of_selects hr hq, fun c => ?_, fun s hnone => ?_⟩
  · obtain ⟨hnop, hconfig, hhash, hhashPair, hinsert, hquery, -⟩ := encodingExamples
    exact ⟨(decode_of_full_mask · hnop), (decode_of_full_mask · hconfig), (decode_of_full_mask · hhash),
      (decode_of_full_mask · hhashPair), (decode_of_full_mask · hinsert), (decode_of_full_mask · hquery),
      decode_of_index_mask⟩
  · obtain ⟨i, hi, -⟩ | ⟨-, -, h⟩ := engineStep_cases s
    · obtain ⟨r, hr, hsel⟩ := encode_selects i
      rw [(encodeUndoesDecode _ _ hi).2] at hsel
      exact absurd (hnone r hr) (ne_false_of_eq_true hsel)
    · exact h

/-- A word in flight with the opcode and the operand of a command is performed as that command (R80 step 4). -/
theorem engineStep_of_fields {s : State} {i : Instr} (hres : s.pending.toNat / 16 % 4096 = 0)
    (hop : s.pending.toNat % 16 = rowNumber i) (himm : s.pending.toNat / 65536 = i.operand) : engineStep s = exec i s :=
  engineStep_of_decode (decode_of_fields hres hop himm)

/-- Settles O4, by the four steps of the decoder. -/
theorem engineDispatchFollowsSteps : Obligations.EngineDispatchFollowsSteps := fun _ =>
  ⟨fun hres => engineStep_of_illegal (decode_reservedBits hres),
    fun hres hop => engineStep_of_illegal (decode_reservedOpcode hres hop),
    fun hres hop himm => engineStep_of_illegal (decode_strayImmediate hres hop himm),
    fun hres hop => engineStep_of_fields hres hop rfl,
    fun hres himm =>
      ⟨fun hop => engineStep_of_fields hres hop himm, fun hop => engineStep_of_fields hres hop himm,
        fun hop => engineStep_of_fields hres hop himm, fun hop => engineStep_of_fields hres hop himm,
        fun hop => engineStep_of_fields hres hop himm, fun hop => engineStep_of_fields hres hop himm⟩⟩

end Sys2Proof.Machine
end

section
/-! SUPPORT and the settling theorem. The pseudo-instruction `item` (spec/30_encoding.md R91): its accesses fill the item buffer from
cell 0 upwards. -/

namespace Sys2Proof.Machine

/-! ### Lists of events -/

/-- Two lists of events are performed one after the other. -/
theorem performAll_append (ops ops' : List HostOp) (s : State) :
    performAll (ops ++ ops') s = performAll ops' (performAll ops s) := List.foldl_append

/-- What holds before a counted list of events, and which each event carries on to the next count, holds after it. -/
theorem performAll_range {P : Nat → State → Prop} {f : Nat → HostOp} {n : Nat} {s : State} (h0 : P 0 s)
    (hstep : ∀ k < n, ∀ t, P k t → P (k + 1) (perform (f k) t)) : P n (performAll ((List.range n).map f) s) := by
  induction n with
  | zero => exact h0
  | succ n ih =>
    rw [List.range_succ, List.map_append, performAll_append]
    exact hstep n n.lt_succ_self _ (ih fun k hk => hstep k (hk.trans n.lt_succ_self))

/-! ### The bytes of the accesses -/

/-- Byte `b` of a block is byte `4k + b` of the item (R56, R101). -/
theorem extractLsb'_block (d : List Byte) (k : Nat) {b : Nat} (hb : b < 4) :
    (block d k).extractLsb' (8 * b) 8 = byteAt d (4 * k + b) := by
  obtain ⟨h0, h1, h2, h3⟩ := extractLsb'_append_bytes (byteAt d (4 * k)) (byteAt d (4 * k + 1)) (byteAt d (4 * k + 2))
    (byteAt d (4 * k + 3))
  rw [block_eq_append]
  interval_cases b
  · exact h0
  · exact h1
  · exact h2
  · exact h3

/-- A byte within the item. -/
theorem byteAt_of_lt {d : List Byte} {j : Nat} (h : j < d.length) : byteAt d j = d[j] := by
  simp [byteAt, h]

/-! ### The item buffer, cell by cell -/

/-- `Loaded s d n t`: `t` is `s` with the first `n` bytes of `d` in item cells `0 .. n-1` and every other cell as it was. -/
structure Loaded (s : State) (d : List Byte) (n : Nat) (t : State) : Prop where
  frame : t = { s with item := t.item }
  cells : ∀ a, t.item.read a = if a < n then some (byteAt d a) else s.item.read a

/-- Nothing loaded yet. -/
theorem loaded_zero (s : State) (d : List Byte) : Loaded s d 0 s := ⟨rfl, fun _ => rfl⟩

section
variable {s t : State} {d : List Byte} {n : Nat}

theorem Loaded.params (h : Loaded s d n t) : t.params = s.params := by rw [h.frame]
theorem Loaded.busy (h : Loaded s d n t) : t.busy = s.busy := by rw [h.frame]

/-- A write that gives the next cells their bytes of the item, and keeps every other cell, loads them too. -/
theorem Loaded.extend (h : Loaded s d n t) {m : Memory} {i : Nat}
    (hm : ∀ a, m.read a = if n ≤ a ∧ a < n + i then some (byteAt d a) else t.item.read a) :
    Loaded s d (n + i) { t with item := m } := by
  refine ⟨by rw [h.frame], fun a => (hm a).trans ?_⟩
  rw [h.cells]
  by_cases ha : n ≤ a ∧ a < n + i
  · rw [if_pos ha, if_pos ha.2]
  · rw [if_neg ha]
    exact if_congr (by omega) rfl rfl

variable (hp : s.params.Valid) (hb : s.busy = false)
include hp hb

/-- A 32-bit item write deposits the word's four bytes (R53). -/
theorem perform_w32_item {a : Nat} (ha : a < s.params.itemMax) (h4 : a % 4 = 0) (v : Word) :
    perform (w32 (itemOffset a) v) s = { s with item := s.item.writeWord a v } :=
  hostWrite_ok (mapAccess_itemWord hp ha h4) hb rfl

/-- An 8-bit item write deposits its byte (R53). -/
theorem perform_w8_item {a : Nat} (ha : a < s.params.itemMax) (x : Byte) :
    perform (w8 (itemOffset a) x) s = { s with item := s.item.write a x } := by
  have hx : (x.setWidth 32).extractLsb' 0 8 = x := BitVec.eq_of_toNat_eq (by simp [x.isLt])
  have hw : perform (w8 (itemOffset a) x) s = writeTarget (.itemByte a) (x.setWidth 32) s :=
    hostWrite_ok (mapAccess_itemByte hp ha) hb rfl
  rw [hw, writeTarget, hx]

/-- A 32-bit write of the next block loads four bytes more. -/
theorem Loaded.word {k : Nat} (h : Loaded s d (4 * k) t) (hk : 4 * k < s.params.itemMax) :
    Loaded s d (4 * (k + 1)) (perform (w32 (itemOffset (4 * k)) (block d k)) t) := by
  rw [← h.params] at hp hk
  rw [perform_w32_item hp (h.busy.trans hb) hk (Nat.mul_mod_right 4 k)]
  refine h.extend fun a => ?_
  rw [Memory.read_writeWord]
  refine ite_congr rfl (fun ⟨hlo, hhi⟩ => ?_) fun _ => rfl
  rw [extractLsb'_block d k (by omega), Nat.add_sub_cancel' hlo]

/-- An 8-bit write of the next byte loads one byte more. -/
theorem Loaded.byte (h : Loaded s d n t) (hn : n < s.params.itemMax) :
    Loaded s d (n + 1) (perform (w8 (itemOffset n) (byteAt d n)) t) := by
  rw [← h.params] at hp hn
  rw [perform_w8_item hp (h.busy.trans hb) hn]
  refine h.extend fun a => ?_
  rw [Memory.read_write]
  refine ite_congr (propext (by omega)) (fun ⟨hlo, hhi⟩ => ?_) fun _ => rfl
  rw [show a = n by omega]

/-- The accesses of `item` before its last load the whole item: the blocks, then the tail. -/
theorem item_loads (hd : d.length ≤ s.params.itemMax) :
    ∃ t, Loaded s d d.length t ∧
      performAll (item d) s = perform (w32 Reg.itemLen.offset (BitVec.ofNat 32 d.length)) t := by
  refine ⟨_, ?_, by rw [item, performAll_append, performAll_append]; rfl⟩
  have hlen : d.length = 4 * (d.length / 4) + d.length % 4 := (Nat.div_add_mod _ 4).symm
  have hwords := performAll_range (P := fun k t => Loaded s d (4 * k) t) (loaded_zero s d)
    (n := d.length / 4) fun k hk t h => h.word hp hb (by omega)
  have hbytes := performAll_range (P := fun k t => Loaded s d (4 * (d.length / 4) + k) t) hwords
    (n := d.length % 4) fun k hk t h => h.byte (n := 4 * (d.length / 4) + k) hp hb (by omega)
  rwa [← hlen] at hbytes

end

/-- The cells of a whole item are the item. -/
theorem Loaded.map_range {s t : State} {d : List Byte} (h : Loaded s d d.length t) :
    (List.range d.length).map (fun a => (t.item.read a).getD 0) = d := by
  refine List.ext_getElem (by simp) fun j hj hj' => ?_
  rw [List.getElem_map, List.getElem_range, h.cells, if_pos hj', Option.getD_some, byteAt_of_lt hj']

/-- Settles O59: with the bytes loaded, the last access writes ITEM_LEN. -/
theorem itemPseudoInstructionLoadsTheItem : Obligations.ItemPseudoInstructionLoadsTheItem := by
  intro s d hp hb hd
  obtain ⟨t, hload, hitem⟩ := item_loads hp hb hd
  have hfit : d.length % 2 ^ 32 = d.length := by
    obtain ⟨-, ⟨-, -, hmax⟩, -⟩ := hp
    omega
  have hlen : (BitVec.ofNat 32 d.length).toNat = d.length := (BitVec.toNat_ofNat _ _).trans hfit
  refine ⟨{ t with itemLen := BitVec.ofNat 32 d.length }, ?_, ⟨?_, fun a ha => ?_⟩, ?_, ?_, fun a ha => ?_⟩
  · rw [hitem]
    exact hostWrite_stores (r := .itemLen) _ (hload.busy.trans hb) rfl (.inl rfl)
  · dsimp only
    rwa [hlen, hload.params]
  · dsimp only at ha ⊢
    rw [hlen] at ha
    rw [hload.cells, if_pos ha]
    rfl
  · rw [State.theItem, hlen]
    exact hload.map_range
  · rw [hload.frame]
  · exact (hload.cells a).trans (if_neg ha.not_gt)

end Sys2Proof.Machine
end

section
/-! SUPPORT and the settling theorems. The hash core on whole blocks and a tail (spec/40_hash_core.md R101 to R107, R112): after
whole blocks, the loop and the tail read what follows as an item of its own. -/

namespace Sys2Proof.Machine

/-! ### Blocks and mixing steps (R101 to R103, R108) -/

/-- Settles O50: the four bytes are within the item, and their concatenation is the little-endian number. -/
theorem blockReadIsLittleEndian : Obligations.BlockReadIsLittleEndian := by
  intro d b h
  have h0 : byteAt d (4 * b) = d[4 * b] := byteAt_of_lt (by omega)
  have h1 : byteAt d (4 * b + 1) = d[4 * b + 1] := byteAt_of_lt (by omega)
  have h2 : byteAt d (4 * b + 2) = d[4 * b + 2] := byteAt_of_lt (by omega)
  have h3 : byteAt d (4 * b + 3) = d[4 * b + 3] := byteAt_of_lt h
  rw [block_eq_append, toNat_append_bytes, h0, h1, h2, h3]

/-- Settles O51: the steps are the rules' own, with R14's rotation as core Lean's. -/
theorem mixingStepsAreMurmur3 : Obligations.MixingStepsAreMurmur3 := by
  refine ⟨fun k => ?_, fun h km => ?_, fun _ => rfl⟩
  · rw [mixK, rotl32_eq _ (by decide)]
    rfl
  · rw [mixH, rotl32_eq _ (by decide)]
    rfl

/-! ### The block loop (R100, R104) -/

/-- A block within the first part of an item is that part's. -/
theorem block_append_left {d : List Byte} {b : Nat} (e : List Byte) (hb : b < d.length / 4) :
    block (d ++ e) b = block d b := by
  have hbyte : ∀ j < d.length, byteAt (d ++ e) j = byteAt d j := List.getD_append d e 0
  rw [block, hbyte _ (by omega), hbyte _ (by omega), hbyte _ (by omega), hbyte _ (by omega), block]

section
variable {d : List Byte} (hd : d.length % 4 = 0)
include hd

/-- After whole blocks, the blocks that follow are those of the rest. -/
theorem block_append_right (e : List Byte) (b : Nat) : block (d ++ e) (d.length / 4 + b) = block e b := by
  have hbyte : ∀ j, byteAt (d ++ e) (4 * (d.length / 4 + b) + j) = byteAt e (4 * b + j) := fun j => by
    rw [← byteAt_append d e]
    congr 1
    omega
  rw [block_eq_append, block_eq_append, hbyte 1, hbyte 2, hbyte 3]
  exact congrArg _ (hbyte 0)

/-- The number of whole blocks of two parts, the first of whole blocks. -/
theorem length_append_div_four (e : List Byte) : (d ++ e).length / 4 = d.length / 4 + e.length / 4 := by
  rw [List.length_append]
  omega

/-- The loop over two parts, the first of whole blocks: over the first, then over the rest. -/
theorem mixBlocks_append (e : List Byte) (h : Word) : mixBlocks (d ++ e) h = mixBlocks e (mixBlocks d h) := by
  have hleft : ∀ a, ∀ b ∈ List.range (d.length / 4), mixH a (mixK (block (d ++ e) b)) = mixH a (mixK (block d b)) :=
    fun a b hb => by rw [block_append_left e (List.mem_range.mp hb)]
  rw [mixBlocks, length_append_div_four hd, List.range_add, List.foldl_append, List.foldl_map,
    List.foldl_ext _ _ _ hleft]
  simp only [block_append_right hd]
  rfl

end

/-- A tail takes no part in the loop. -/
theorem mixBlocks_of_length_lt {t : List Byte} (ht : t.length < 4) (h : Word) : mixBlocks t h = h := by
  rw [mixBlocks, Nat.div_eq_of_lt ht]
  rfl

/-- The loop over one block. -/
theorem mixBlocks_of_length_eq {e : List Byte} (he : e.length = 4) (h : Word) :
    mixBlocks e h = mixH h (mixK (block e 0)) := by
  rw [mixBlocks, he]
  rfl

/-! ### The pipeline (R112) -/

/-- The pipeline drained after some blocks is the loop over them: taking the waiting key late changes no state. -/
theorem drain_foldl_feed (d : List Byte) (l : List Nat) (p : Pipeline) :
    (l.foldl (fun p b => Pipeline.feed p (block d b)) p).drain = l.foldl (fun h b => mixH h (mixK (block d b))) p.drain :=
  (List.foldl_hom Pipeline.drain fun _ _ => rfl).symm

/-- Settles O55: the loop over the parts of an item, and the pipeline's. -/
theorem pipelineComputesTheHash : Obligations.PipelineComputesTheHash := by
  refine ⟨fun _ => rfl, fun d x0 x1 x2 x3 h hd => ?_, fun d t h hd ht => ?_, mh3_eq, fun ext d seed => ?_⟩
  · rw [mixBlocks_append hd, mixBlocks_of_length_eq rfl]
  · rw [mixBlocks_append hd, mixBlocks_of_length_lt ht]
  · rw [mh3Pipelined, drain_foldl_feed, mh3_eq]
    rfl

/-! ### The tail (R105) -/

section
variable {d : List Byte} (hd : d.length % 4 = 0)
include hd

/-- After whole blocks, the tail word is that of the rest. -/
theorem tailWord_append (ext : TailExt) (e : List Byte) : tailWord ext (d ++ e) = tailWord ext e := by
  have hbyte : ∀ j, byteAt (d ++ e) (4 * ((d ++ e).length / 4) + j) = byteAt e (4 * (e.length / 4) + j) := fun j => by
    rw [length_append_div_four hd, ← byteAt_append d e]
    congr 1
    omega
  have hlen : (d ++ e).length % 4 = e.length % 4 := by
    rw [List.length_append]
    omega
  have hbyte0 := hbyte 0
  simp only [Nat.add_zero] at hbyte0
  simp only [tailWord, hbyte, hbyte0, hlen]

/-- After whole blocks, a tail of one to three bytes is folded in by its own tail word. -/
theorem foldTail_append {t : List Byte} (ht : t.length % 4 ≠ 0) (ext : TailExt) (h : Word) :
    foldTail ext (d ++ t) h = h ^^^ mixK (tailWord ext t) := by
  have hlen : 1 ≤ (d ++ t).length % 4 := by
    rw [List.length_append]
    omega
  rw [foldTail, if_pos hlen, tailWord_append hd]

end

section
variable (ext : TailExt) (x y z : Byte)

/-- The tail word of one byte. -/
theorem tailWord_one : tailWord ext [x] = widenTail ext x := by
  simp [tailWord, murmur3, byteAt]

/-- The tail word of two bytes. -/
theorem tailWord_two : tailWord ext [x, y] = widenTail ext y <<< 8 ^^^ widenTail ext x := by
  simp [tailWord, murmur3, byteAt]

/-- The tail word of three bytes. -/
theorem tailWord_three :
    tailWord ext [x, y, z] = widenTail ext z <<< 16 ^^^ widenTail ext y <<< 8 ^^^ widenTail ext x := by
  simp [tailWord, murmur3, byteAt]

end

/-- Settles O52: no tail, or the tail word of one, two or three bytes. -/
theorem tailFoldsByLength : Obligations.TailFoldsByLength := by
  intro ext d h x y z hd
  refine ⟨foldTail_none ext h hd, ?_, ?_, ?_⟩
  · rw [foldTail_append hd (by simp), tailWord_one]
  · rw [foldTail_append hd (by simp), tailWord_two]
  · rw [foldTail_append hd (by simp), tailWord_three]

/-! ### The widening of a tail byte (R106) -/

/-- A byte below 0x80 is widened alike in both modes. -/
theorem widenTail_of_lt {x : Byte} (hx : x.toNat < 0x80) : widenTail .zero x = widenTail .sign x := by
  have hmsb : x.msb = false := BitVec.msb_eq_false_iff_two_mul_lt.mpr (by omega)
  exact (BitVec.signExtend_eq_setWidth_of_msb_false hmsb).symm

/-- Under SIGN a byte of 0x80 or above sets every bit above it. -/
theorem widenTail_sign_of_ge {x : Byte} (hx : 0x80 ≤ x.toNat) : widenTail .sign x = 0xFFFFFF00 ||| x.setWidth 32 := by
  have hmsb : x.msb = true := BitVec.msb_eq_true_iff_two_mul_ge.mpr (by omega)
  calc x.signExtend 32 = 0xFFFFFF#24 ++ x := by rw [BitVec.signExtend_eq_append_of_le (by decide), hmsb]; rfl
    _ = (0xFFFFFF#24 ||| 0#24) ++ (0#8 ||| x) := by rw [BitVec.or_zero, BitVec.zero_or]
    _ = (0xFFFFFF#24 ++ 0#8) ||| (0#24 ++ x) := BitVec.or_append.symm
    _ = 0xFFFFFF00 ||| x.setWidth 32 := by rw [BitVec.setWidth_eq_append (by decide)]; rfl

/-- Items whose tail bytes are widened alike in two modes have the same hash in both. -/
theorem mh3_congr_widenTail {ext ext' : TailExt} {d : List Byte}
    (hw : ∀ j, widenTail ext (byteAt d (4 * (d.length / 4) + j)) = widenTail ext' (byteAt d (4 * (d.length / 4) + j)))
    (seed : Word) : mh3 ext d seed = mh3 ext' d seed := by
  have hw0 := hw 0
  rw [Nat.add_zero] at hw0
  have htail : tailWord ext d = tailWord ext' d := by simp only [tailWord, hw, hw0]
  simp only [mh3_eq, finish, foldTail, htail]

/-- An item without a tail byte of 0x80 or above has the same hash in both modes. -/
theorem mh3_zero_eq_sign {d : List Byte}
    (hlow : ∀ j, 4 * (d.length / 4) ≤ j → (h : j < d.length) → d[j].toNat < 0x80) (seed : Word) :
    mh3 .zero d seed = mh3 .sign d seed := by
  refine mh3_congr_widenTail (fun j => widenTail_of_lt ?_) seed
  by_cases hj : 4 * (d.length / 4) + j < d.length
  · rw [byteAt_of_lt hj]
    exact hlow _ (Nat.le_add_right _ _) hj
  · rw [byteAt, List.getD_eq_default _ _ (Nat.not_lt.mp hj)]
    decide

/-- Settles O53: the values of the two widenings, and hashes whose tail bytes, if any, are below 0x80. -/
theorem tailWideningDiffersOnlyOnHighBytes : Obligations.TailWideningDiffersOnlyOnHighBytes := by
  refine ⟨fun x => ⟨?_, BitVec.toInt_signExtend_of_le (by decide), widenTail_sign_of_ge⟩,
    fun d seed hlow => mh3_zero_eq_sign hlow seed, fun d seed hd => mh3_zero_eq_sign (fun j hj h => ?_) seed⟩
  · exact BitVec.toNat_setWidth_of_le (by decide)
  · omega

end Sys2Proof.Machine
end

section
/-! SUPPORT and the settling theorem. The laws of the hash (spec/40_hash_core.md R111): every step of the finalizer can be undone. -/

namespace Sys2Proof.Machine

/-! ### The finalizer (R108) -/

/-- A right shift by at least one bit that gives the word back was of the zero word. -/
theorem eq_zero_of_ushiftRight_eq {x : Word} {n : Nat} (hn : 0 < n) (h : x >>> n = x) : x = 0 := by
  have hdiv : x.toNat / 2 ^ n = x.toNat := by rw [← Nat.shiftRight_eq_div_pow, ← BitVec.toNat_ushiftRight, h]
  by_contra hx
  have hpos : 0 < x.toNat := Nat.pos_of_ne_zero fun h0 => hx (BitVec.eq_of_toNat_eq h0)
  exact absurd hdiv (Nat.div_lt_self hpos (Nat.one_lt_two_pow hn.ne')).ne

/-- The xor-shift loses nothing: the xor of two words with the same image is its own shift. -/
theorem xorShift_injective {n : Nat} (hn : 0 < n) : Function.Injective (xorShift · n) := by
  intro a b (hab : a ^^^ a >>> n = b ^^^ b >>> n)
  have hshift : (a ^^^ b) >>> n = a ^^^ b := by
    calc (a ^^^ b) >>> n = a >>> n ^^^ b >>> n := BitVec.ushiftRight_xor_distrib a b n
      _ = a ^^^ (a ^^^ a >>> n) ^^^ b >>> n := by rw [← BitVec.xor_assoc a, BitVec.xor_self, BitVec.zero_xor]
      _ = a ^^^ b := by rw [hab, BitVec.xor_assoc, BitVec.xor_assoc b, BitVec.xor_self, BitVec.xor_zero]
  exact BitVec.xor_eq_zero_iff.mp (eq_zero_of_ushiftRight_eq hn hshift)

/-- Multiplying by a word with an inverse loses nothing. -/
theorem mul_const_injective_of_inverse {c c' : Word} (h : c * c' = 1#32) : Function.Injective (· * c) :=
  Function.LeftInverse.injective (g := (· * c')) fun x => by
    change x * c * c' = x
    rw [BitVec.mul_assoc, h, BitVec.mul_one]

/-- FMIX loses nothing, step by step: the multipliers are odd, and their inverses are given. -/
theorem fmix_injective : Function.Injective fmix :=
  have hmul1 : Function.Injective (· * murmur3.finalMultiplier1) :=
    mul_const_injective_of_inverse (c' := 0xa5cb9243) (by decide)
  have hmul2 : Function.Injective (· * murmur3.finalMultiplier2) :=
    mul_const_injective_of_inverse (c' := 0x7ed1b41d) (by decide)
  have hshift1 : Function.Injective (xorShift · murmur3.finalShift1) := xorShift_injective (by decide)
  have hshift2 : Function.Injective (xorShift · murmur3.finalShift2) := xorShift_injective (by decide)
  have hshift3 : Function.Injective (xorShift · murmur3.finalShift3) := xorShift_injective (by decide)
  hshift3.comp (hmul2.comp (hshift2.comp (hmul1.comp hshift1)))

/-! ### The empty item and a zero tail byte -/

/-- The hash of the empty item is the finalized seed. -/
theorem mh3_nil (ext : TailExt) (seed : Word) : mh3 ext [] seed = fmix seed := by
  rw [mh3_eq, finish, foldTail_none ext _ rfl, mixBlocks_of_length_lt (by decide)]
  exact congrArg fmix BitVec.xor_zero

/-- After whole blocks, a zero tail byte leaves the state as it is. -/
theorem foldTail_append_zero {d : List Byte} (hd : d.length % 4 = 0) (ext : TailExt) (h : Word) :
    foldTail ext (d ++ [0]) h = h := by
  have hmix : mixK (widenTail ext 0) = 0#32 := by cases ext <;> decide
  rw [foldTail_append hd (by decide), tailWord_one, hmix, BitVec.xor_zero]

/-- The length fold tells an item of whole blocks from the item with a zero byte more: the states before it are the same, and
FMIX is injective. -/
theorem mh3_append_zero_ne {d : List Byte} (hd : d.length % 4 = 0) (ext : TailExt) (seed : Word) :
    mh3 ext (d ++ [0]) seed ≠ mh3 ext d seed := by
  intro h
  rw [mh3_eq, mh3_eq, finish, finish, foldTail_append_zero hd, foldTail_none ext _ hd, mixBlocks_append hd,
    mixBlocks_of_length_lt (by decide)] at h
  have hlen := congrArg BitVec.toNat ((BitVec.xor_right_inj _).mp (fmix_injective h))
  rw [List.length_append, List.length_singleton, BitVec.toNat_ofNat, BitVec.toNat_ofNat] at hlen
  omega

/-- Settles O54: FMIX is injective, so bijective on finitely many words; the empty item and the zero tail byte follow from the fold
and the loop. -/
theorem hashLaws : Obligations.HashLaws :=
  have hzero : fmix 0 = 0 := by decide
  ⟨Finite.injective_iff_bijective.mp fmix_injective, ⟨hzero, fun ext => (mh3_nil ext 0).trans hzero⟩, mh3_nil,
    fun ext _ h seed hd => ⟨by decide, foldTail_append_zero hd ext h, mh3_append_zero_ne hd ext seed⟩⟩

end Sys2Proof.Machine
end

section
/-! SUPPORT and the settling theorems. The hash commands and the item they read (spec/40_hash_core.md R113 to R115). -/

namespace Sys2Proof.Machine

/-! ### Malformed words (R80) -/

/-- A word with a bit of RES set, or with an immediate and another opcode than INDEX's, fails a step of R80. -/
theorem malformedRaises (op : BitVec 4) : MalformedRaises op := by
  intro s hop hbad
  have hop' : s.pending.toNat % 16 = op.toNat := by rw [← toNat_opField, opField, hop]
  by_cases hres : s.pending.toNat / 16 % 4096 = 0
  · have hres' : resField s.pending = 0 := BitVec.eq_of_toNat_eq ((toNat_resField _).trans hres)
    obtain ⟨h6, himm⟩ := hbad.resolve_left (not_not_intro hres')
    have h6' : s.pending.toNat % 16 ≠ 6 := fun h => h6 (BitVec.eq_of_toNat_eq (hop'.symm.trans h))
    have himm' : s.pending.toNat / 65536 ≠ 0 := fun h =>
      himm (BitVec.eq_of_toNat_eq ((toNat_immField _).trans h))
    by_cases h7 : 7 ≤ s.pending.toNat % 16
    · exact engineStep_of_illegal (decode_reservedOpcode hres h7)
    · exact engineStep_of_illegal (decode_strayImmediate hres (by omega) himm')
  · exact engineStep_of_illegal (decode_reservedBits hres)

/-! ### The item operand (R113) -/

/-- The empty item can be read. -/
theorem itemReady_of_itemLen_zero {s : State} (h : s.itemLen = 0) : s.ItemReady := by
  simp [State.ItemReady, h]

/-- The empty item. -/
theorem theItem_of_itemLen_zero {s : State} (h : s.itemLen = 0) : s.theItem = [] := by
  simp [State.theItem, h]

/-- The item whose cells hold the bytes of `d`. -/
theorem theItem_of_cells {s : State} {d : List Byte} (hlen : d.length = s.itemLen.toNat)
    (hcells : ∀ a, (h : a < d.length) → s.item.read a = some d[a]) : s.theItem = d := by
  refine List.ext_getElem (by simp [State.theItem, hlen]) fun a ha ha' => ?_
  simp [State.theItem, hcells a ha']

/-- A command that comes to an item with an unwritten cell faults with the first one: two first ones are the same. -/
theorem withItem_unwritten {s : State} {a : Nat} (hlen : s.itemLen.toNat ≤ s.params.itemMax) (ha : a < s.itemLen.toNat)
    (hnone : s.item.read a = none) (hfirst : ∀ b < a, (s.item.read b).isSome = true) (e : List Byte → State) :
    withItem s e = .fault (.unwrittenItemCell a) := by
  have ha' : ¬ (s.item.read a).isSome = true := by simp [hnone]
  obtain ⟨t, ht⟩ | ⟨c, hc, hf⟩ := withItem_cases s e
  · obtain ⟨⟨-, hready⟩, -⟩ | ⟨hlong, -⟩ := withItem_next ht
    · exact absurd (hready a ha) ha'
    · exact absurd hlen (Nat.not_le.mpr hlong)
  · obtain ⟨-, -, hcnone, hcfirst⟩ := itemOperand_unwritten hc
    obtain hlt | rfl | hgt := Nat.lt_trichotomy a c
    · exact absurd (hcfirst a hlt) ha'
    · exact hf
    · exact absurd (hfirst c hgt) (by simp [hcnone])

/-- On a configured filter INSERT is its effect on the item. -/
theorem exec_insert_configured {s : State} (hc : s.configured = true) : exec .insert s = withItem s s.insertItem :=
  whenConfigured_true hc _

/-- On a configured filter QUERY is its effect on the item. -/
theorem exec_query_configured {s : State} (hc : s.configured = true) : exec .query s = withItem s s.queryItem :=
  whenConfigured_true hc _

/-- Settles O16: each command that reads the item is `withItem`, which has an outcome for each state of the item. -/
theorem itemFetchOutcomes : Obligations.ItemFetchOutcomes := by
  refine ⟨fun s hlong => ?_, fun s hlen d hd hcells => ?_, fun s h => ?_, fun s a hlen ha hnone hfirst => ?_⟩
  · have hfail := withItem_tooLong hlong
    refine ⟨hfail _, hfail _, fun hc => ?_⟩
    rw [exec_insert_configured hc, exec_query_configured hc]
    exact ⟨hfail _, hfail _⟩
  · have hready : s.ItemReady := ⟨hlen, fun a ha => by simp [hcells a (hd ▸ ha)]⟩
    rw [itemOperand_ready hready, theItem_of_cells hd hcells]
  · rw [itemOperand_ready (itemReady_of_itemLen_zero h), theItem_of_itemLen_zero h]
  · have hfault := withItem_unwritten hlen ha hnone hfirst
    refine ⟨hfault _, hfault _, fun hc => ?_⟩
    rw [exec_insert_configured hc, exec_query_configured hc]
    exact ⟨hfault _, hfault _⟩

/-! ### HASH and HASHPAIR (R114, R115) -/

/-- HASH on an item that can be read. -/
theorem exec_hash_ready {s : State} (h : s.ItemReady) :
    exec .hash s = .next { s with hashOut := mh3 s.params.tailExt s.theItem s.seed, busy := false } :=
  withItem_ready h _

/-- Settles O11, by the outcomes of the item; the examples are computed. -/
theorem hashWritesHashOut : Obligations.HashWritesHashOut := by
  refine ⟨rfl, malformedRaises 0x2, fun s => exec_hash_ready, fun s h => withItem_tooLong h _, fun s h => ?_,
    fun ext => ?_, by decide⟩
  · rw [exec_hash_ready (itemReady_of_itemLen_zero h), theItem_of_itemLen_zero h, mh3_nil]
  · rw [mh3_nil]
    decide

/-- Settles O12, by the outcomes of the item; the worked values are computed. -/
theorem hashPairWritesBothHashes : Obligations.HashPairWritesBothHashes :=
  ⟨rfl, malformedRaises 0x3, fun _ h => withItem_ready h _, fun _ h => withItem_tooLong h _, by decide, by decide⟩

end Sys2Proof.Machine
end

section
/-! SUPPORT and the settling theorems. The index law (spec/41_index_generator.md R130 to R135): its value in both modes, its corner
cases, and the index list with its incremental form. -/

namespace Sys2Proof.Machine

/-! ### The law in both modes (R130) -/

section
variable (mode : IdxMode) (h1 h2 : Word) (i m : Nat)

theorem idx_wrap32 : idx .wrap32 h1 h2 i m = (h1.toNat + i * h2.toNat) % 2 ^ 32 % m := rfl

theorem idx_exactSum : idx .exactSum h1 h2 i m = (h1.toNat + i * h2.toNat) % m := rfl

/-- The sum of 32-bit words is the exact sum mod 2^32 (R14). -/
theorem toNat_add_ofNat_mul : (h1 + BitVec.ofNat 32 i * h2).toNat = (h1.toNat + i * h2.toNat) % 2 ^ 32 := by
  simp [BitVec.toNat_add, BitVec.toNat_mul]

/-- The exact sum for a 16-bit `i` fits 49 bits (R10, R130). -/
theorem add_mul_toNat_lt (hi : i ≤ 65535) : h1.toNat + i * h2.toNat < 2 ^ 49 := by
  have hmul : i * h2.toNat ≤ 65535 * 2 ^ 32 := Nat.mul_le_mul hi h2.isLt.le
  have hadd := h1.isLt
  omega

end

/-- Settles O56: the law is its definition, with the sum of words as a number. -/
theorem indexLaw : Obligations.IndexLaw := by
  intro h1 h2 i m hi _ _
  refine ⟨?_, idx_exactSum h1 h2 i m, add_mul_toNat_lt h1 h2 i hi⟩
  rw [idx_wrap32, toNat_add_ofNat_mul]

/-! ### Corner cases (R134) -/

section
variable (mode : IdxMode) (h1 h2 : Word) (i m : Nat)

/-- The modes agree where the sum does not reach 2^32. -/
theorem idx_wrap32_eq_exactSum_of_lt (hsum : h1.toNat + i * h2.toNat < 2 ^ 32) :
    idx .wrap32 h1 h2 i m = idx .exactSum h1 h2 i m := by
  rw [idx_wrap32, Nat.mod_eq_of_lt hsum, idx_exactSum]

/-- The modes agree for a power of two: it divides 2^32, so a wrap does not change the remainder. -/
theorem idx_wrap32_two_pow {e : Nat} (he : e ≤ 32) : idx .wrap32 h1 h2 i (2 ^ e) = idx .exactSum h1 h2 i (2 ^ e) :=
  Nat.mod_mod_of_dvd _ (Nat.pow_dvd_pow 2 he)

/-- Under EXACT a multiple of `m` as `h2` leaves `h1 mod m`. -/
theorem idx_exactSum_of_mod_eq_zero (h : h2.toNat % m = 0) : idx .exactSum h1 h2 i m = h1.toNat % m := by
  rw [idx_exactSum, Nat.add_mod, Nat.mul_mod, h, Nat.mul_zero, Nat.zero_mod, Nat.add_zero, Nat.mod_mod]

/-- An addend of 0 leaves `h1 mod m` in both modes. -/
theorem idx_of_mul_eq_zero (h : i * h2.toNat = 0) : idx mode h1 h2 i m = h1.toNat % m := by
  have hexact : idx .exactSum h1 h2 i m = h1.toNat % m := by rw [idx_exactSum, h, Nat.add_zero]
  cases mode with
  | wrap32 => rw [idx_wrap32_eq_exactSum_of_lt h1 h2 i m (h ▸ h1.isLt), hexact]
  | exactSum => exact hexact

theorem idx_i_zero : idx mode h1 h2 0 m = h1.toNat % m := idx_of_mul_eq_zero mode h1 h2 0 m (Nat.zero_mul _)

theorem idx_h2_zero : idx mode h1 0 i m = h1.toNat % m := idx_of_mul_eq_zero mode h1 0 i m (Nat.mul_zero i)

end

/-- A modulus that is no power of two divides none. -/
theorem not_dvd_two_pow_of_ne {m : Nat} (hpow : ∀ e, m ≠ 2 ^ e) (n : Nat) : ¬ m ∣ 2 ^ n := by
  intro hdvd
  obtain ⟨e, -, he⟩ := (Nat.dvd_prime_pow Nat.prime_two).mp hdvd
  exact hpow e he

/-- For such an `m` WRAP32 breaks R134 (a): `h1 = 2^32 - m` and `h2 = m` add up to 2^32, which wraps to 0, but `h1 mod m` is not
0. -/
theorem exists_wrap32_ne {m : Nat} (hm : 1 ≤ m) (hlt : m < 2 ^ 32) (hpow : ∀ e, m ≠ 2 ^ e) :
    ∃ (h1 h2 : Word) (i : Nat), i ≤ 65535 ∧ h2.toNat % m = 0 ∧ 2 ^ 32 ≤ h1.toNat + i * h2.toNat ∧
      idx .wrap32 h1 h2 i m ≠ h1.toNat % m := by
  have hh1 : (BitVec.ofNat 32 (2 ^ 32 - m)).toNat = 2 ^ 32 - m := Nat.mod_eq_of_lt (by omega)
  have hh2 : (BitVec.ofNat 32 m).toNat = m := Nat.mod_eq_of_lt hlt
  have hsum : 2 ^ 32 - m + 1 * m = 2 ^ 32 := by omega
  refine ⟨BitVec.ofNat 32 (2 ^ 32 - m), BitVec.ofNat 32 m, 1, by decide, ?_, ?_, fun h => ?_⟩
  · rw [hh2, Nat.mod_self]
  · rw [hh1, hh2, hsum]
  · rw [idx_wrap32, hh1, hh2, hsum, Nat.mod_self, Nat.zero_mod] at h
    have hdvd : m ∣ 2 ^ 32 - m := Nat.dvd_of_mod_eq_zero h.symm
    exact not_dvd_two_pow_of_ne hpow 32 ((Nat.dvd_sub_self_right.mp hdvd).resolve_right hlt.not_ge)

/-- Settles O57: where the modes agree EXACT decides, and where they do not the sum of exactly 2^32 tells them apart. -/
theorem indexCornerCases : Obligations.IndexCornerCases :=
  ⟨fun h1 h2 i m _ => idx_exactSum_of_mod_eq_zero h1 h2 i m,
    fun mode h1 i m _ => idx_h2_zero mode h1 i m,
    fun h1 h2 i _ he h => (idx_wrap32_two_pow h1 h2 i he).trans (idx_exactSum_of_mod_eq_zero h1 h2 i _ h),
    fun h1 h2 i m _ h hsum =>
      (idx_wrap32_eq_exactSum_of_lt h1 h2 i m hsum).trans (idx_exactSum_of_mod_eq_zero h1 h2 i m h),
    fun _ => exists_wrap32_ne,
    fun h1 h2 i _ he => idx_wrap32_two_pow h1 h2 i he,
    fun mode h1 h2 m _ => idx_i_zero mode h1 h2 m⟩

/-! ### The index list (R132, R135) -/

section
variable (mode : IdxMode) (h1 h2 : Word) (k m : Nat)

theorem length_indexList : (indexList mode h1 h2 k m).length = k := by simp [indexList]

theorem getElem?_indexList {i : Nat} (h : i < k) : (indexList mode h1 h2 k m)[i]? = some (idx mode h1 h2 i m) := by
  simp [indexList, h]

/-- What R135's incremental form carries at entry `i`: the sum under WRAP32, the remainder under EXACT. -/
def carriedAt (i : Nat) : Nat :=
  match mode with
  | .wrap32 => idxSum .wrap32 h1 h2 i
  | .exactSum => idx .exactSum h1 h2 i m

/-- The incremental form starts from what is carried at entry 0. -/
theorem indexListStepwise_eq : indexListStepwise mode h1 h2 k m = indexListFrom mode h2 m k (carriedAt mode h1 h2 m 0) := by
  cases mode with
  | wrap32 => simp [indexListStepwise, carriedAt, idxSum, Nat.mod_eq_of_lt h1.isLt]
  | exactSum => rw [indexListStepwise, carriedAt, idx_i_zero]

/-- One addition of `h2` carries the form from entry `i`, its head, to the next one. -/
theorem indexListFrom_succ (n i : Nat) :
    indexListFrom mode h2 m (n + 1) (carriedAt mode h1 h2 m i) =
      idx mode h1 h2 i m :: indexListFrom mode h2 m n (carriedAt mode h1 h2 m (i + 1)) := by
  have hnext : h1.toNat + i * h2.toNat + h2.toNat = h1.toNat + (i + 1) * h2.toNat := by ring
  cases mode with
  | wrap32 =>
    have hstep : (idxSum .wrap32 h1 h2 i + h2.toNat) % 2 ^ 32 = idxSum .wrap32 h1 h2 (i + 1) := by
      rw [idxSum, idxSum, Nat.mod_add_mod, hnext]
    rw [carriedAt, carriedAt, indexListFrom, hstep, idx]
  | exactSum =>
    have hstep : (idx .exactSum h1 h2 i m + h2.toNat % m) % m = idx .exactSum h1 h2 (i + 1) m := by
      rw [idx_exactSum, idx_exactSum, ← Nat.add_mod, hnext]
    rw [carriedAt, carriedAt, indexListFrom, hstep]

/-- From entry `i` on the incremental form gives the law's entries. -/
theorem indexListFrom_carriedAt (n i : Nat) :
    indexListFrom mode h2 m n (carriedAt mode h1 h2 m i) = (List.range' i n).map (fun j => idx mode h1 h2 j m) := by
  induction n generalizing i with
  | zero => cases mode <;> rfl
  | succ n ih => rw [indexListFrom_succ, ih, List.range'_succ, List.map_cons]

/-- The incremental form gives the index list (R135). -/
theorem indexListStepwise_eq_indexList : indexListStepwise mode h1 h2 k m = indexList mode h1 h2 k m := by
  rw [indexListStepwise_eq, indexListFrom_carriedAt, indexList, List.range_eq_range']

end

section
variable {l l' : List Nat} (h : ∀ j, j ∈ l ↔ j ∈ l')
include h

/-- Testing a list of cells depends only on the set of its entries (R132). -/
theorem BitArray.testAll_congr (b : BitArray) : b.testAll l = b.testAll l' := by
  rw [Bool.eq_iff_iff, testAll_iff, testAll_iff]
  exact forall_congr' fun j => imp_congr_left (h j)

/-- Setting a list of cells depends only on the set of its entries (R132). -/
theorem BitArray.get_setAll_congr (b : BitArray) (j : Nat) : (b.setAll l).get j = (b.setAll l').get j := by
  rw [get_setAll, get_setAll, decide_eq_decide.mpr (h j)]

end

/-- Settles O58, from the list's entries, the incremental form, and the cells it sets and tests. -/
theorem indexListFormsAgree : Obligations.IndexListFormsAgree :=
  ⟨fun mode h1 h2 k m _ => ⟨length_indexList mode h1 h2 k m, rfl, fun _ hi => getElem?_indexList mode h1 h2 k m hi,
      indexListStepwise_eq_indexList mode h1 h2 k m⟩,
    fun b _ _ h => ⟨BitArray.testAll_congr h b, BitArray.get_setAll_congr h b⟩⟩

end Sys2Proof.Machine
end

section
/-! SUPPORT and the settling theorem. The INDEX command (spec/41_index_generator.md R133). -/

namespace Sys2Proof.Machine

/-- The configured `m` is 0 exactly when BIT_COUNT is. -/
theorem State.m_eq_zero_iff (s : State) : s.m = 0 ↔ s.bitCount = 0 := BitVec.toNat_inj (y := 0#32)

/-- INDEX's word (R133). -/
theorem encode_index {i : Nat} (hi : i ≤ 65535) : encode (.index i) = BitVec.ofNat 32 (i * 2 ^ 16 + 6) := by
  have hword : (encode (.index i)).toNat = i * 2 ^ 16 + 6 := toNat_encode ((wellFormed_iff _).mpr hi)
  rw [← hword, BitVec.ofNat_toNat, BitVec.setWidth_eq]

section
variable {s : State} (i : Nat) (hc : s.configured = true)
include hc

/-- INDEX on a filter of no bits raises ZERO_MODULUS. -/
theorem exec_index_zero (hm : s.bitCount = 0) : exec (.index i) s = .next (s.failed .zeroModulus) := by
  rw [exec, execIndex, whenConfigured_true hc, if_pos ((State.m_eq_zero_iff s).mpr hm), State.abandon_eq_failed]

/-- On any other configured filter INDEX writes the index to IDX_OUT. -/
theorem exec_index (hm : s.bitCount ≠ 0) :
    exec (.index i) s =
      .next { s with
        idxOut := BitVec.ofNat 32 (idx s.params.idxMode s.h1 s.h2 i s.bitCount.toNat), busy := false } := by
  rw [exec, execIndex, whenConfigured_true hc, if_neg (mt (State.m_eq_zero_iff s).mp hm)]
  rfl

end

/-- The index of a filter fits IDX_OUT: it is below `m`, a word (R131). -/
theorem toNat_ofNat_idx (mode : IdxMode) (h1 h2 : Word) (i : Nat) {m : Word} (hm : m.toNat ≠ 0) :
    (BitVec.ofNat 32 (idx mode h1 h2 i m.toNat)).toNat = idx mode h1 h2 i m.toNat := by
  rw [BitVec.toNat_ofNat, Nat.mod_eq_of_lt ((idx_lt mode h1 h2 i hm).trans m.isLt)]

/-- Settles O15: the corner cases of the written value are those of the law; the examples are computed. -/
theorem indexWritesIdxOut : Obligations.IndexWritesIdxOut := by
  refine ⟨fun i => encode_index, malformedRaises 0x6, fun s i hc => whenConfigured_false hc _,
    fun s i => exec_index_zero i, fun s i hc hm => ⟨_, exec_index i hc hm, rfl, ?_⟩, by decide, by decide⟩
  have hval := toNat_ofNat_idx s.params.idxMode s.h1 s.h2 i (mt (State.m_eq_zero_iff s).mp hm)
  have hzero (h2 : s.h2 = 0) : idx s.params.idxMode s.h1 s.h2 i s.bitCount.toNat = s.h1.toNat % s.bitCount.toNat := by
    rw [h2, idx_h2_zero]
  have hone (h : s.bitCount = 1) : idx s.params.idxMode s.h1 s.h2 i s.bitCount.toNat = 0 := by
    rw [h]
    exact Nat.mod_one _
  refine ⟨hval, ?_, fun h => BitVec.eq_of_toNat_eq (hval.trans (hone h)), fun h2 => hval.trans (hzero h2),
    fun h1 h2 => ?_⟩
  · rintro rfl
    exact hval.trans (idx_i_zero _ _ _ _)
  · have hnone : s.h1.toNat % s.bitCount.toNat = 0 := by rw [h1]; exact Nat.zero_mod _
    exact BitVec.eq_of_toNat_eq ((hval.trans (hzero h2)).trans hnone)

end Sys2Proof.Machine
end

section
/-! SUPPORT and the settling theorems. NOP, CONFIG and the two filter commands (spec/42_filter.md R140, R142, R145, R147, R149):
what INSERT and QUERY do to the cells an item indexes, said once. -/

namespace Sys2Proof.Machine

/-! ### NOP and CONFIG (R140, R142) -/

/-- Settles O9: NOP is the end of a command. -/
theorem nopOnlyReturnsBusy : Obligations.NopOnlyReturnsBusy := ⟨rfl, fun _ => rfl, malformedRaises 0x0⟩

/-- Settles O10: CONFIG's three outcomes are its checks in their order, and the cells are those `clearBelow` leaves. -/
theorem configConfiguresOnce : Obligations.ConfigConfiguresOnce := by
  refine ⟨rfl, malformedRaises 0x1, fun s hc => if_pos hc, fun s hc => execConfig_of_lt hc,
    fun s hc hm => ⟨_, execConfig_of_le hc hm, rfl, fun j => ?_⟩⟩
  rw [State.complete_bits, BitArray.get_clearBelow]
  by_cases hj : j < s.bitCount.toNat
  · rw [if_pos hj, State.m, decide_eq_false hj.not_ge, Bool.false_and]
  · rw [if_neg hj, State.m, decide_eq_true (not_lt.mp hj), Bool.true_and]

/-! ### The cells an item indexes (R132) -/

/-- The entries of an item's index list are the index law's values for `i < k` (R130, R132). -/
theorem mem_itemIndices_iff {s : State} {d : List Byte} {j : Nat} :
    j ∈ s.itemIndices d ↔
      ∃ i < s.hashCount.toNat, j = idx s.params.idxMode (s.mh3 d seed1) (s.mh3 d seed2) i s.bitCount.toNat := by
  simp only [State.itemIndices, indexList, List.mem_map, List.mem_range, State.k, State.m, eq_comm (a := j)]

/-- Without hashes an item indexes no cell (R149). -/
theorem itemIndices_eq_nil {s : State} (hk : s.hashCount = 0) (d : List Byte) : s.itemIndices d = [] := by
  simp [State.itemIndices, indexList, State.k, hk]

/-- A cell after the effect of INSERT holds 1 when it did before, or when the item indexes it (R145). -/
theorem get_insertItem_iff {s : State} {d : List Byte} {j : Nat} :
    (s.insertItem d).bits.get j = true ↔ s.bits.get j = true ∨ (s.m ≠ 0 ∧ j ∈ s.itemIndices d) := by
  rw [get_insertItem, Bool.or_eq_true, decide_eq_true_eq]

/-- QUERY's answer is 1 when the filter has no bits, or every cell the item indexes is 1 (R147, R149). -/
theorem contains_iff {s : State} {d : List Byte} :
    s.contains d = true ↔ s.m = 0 ∨ ∀ j ∈ s.itemIndices d, s.bits.get j = true := by
  by_cases hm : s.m = 0
  · simp [State.contains, hm]
  · simp [State.contains, hm, BitArray.testAll_iff]

/-- INSERT of an item whose indexed cells are all 1 changes no cell (R145). -/
theorem get_insertItem_of_contains {s : State} {d : List Byte} (h : s.contains d = true) (j : Nat) :
    (s.insertItem d).bits.get j = s.bits.get j := by
  rw [Bool.eq_iff_iff, get_insertItem_iff, or_iff_left_of_imp]
  rintro ⟨hm, hj⟩
  exact (contains_iff.mp h).resolve_left hm j hj

/-- A filter without bits or without hashes answers 1 for every item (R149). -/
theorem contains_of_degenerate {s : State} (h : s.bitCount = 0 ∨ s.hashCount = 0) (d : List Byte) :
    s.contains d = true := by
  obtain hm | hk := h
  · exact contains_iff.mpr (.inl ((State.m_eq_zero_iff s).mpr hm))
  · exact contains_iff.mpr (.inr (by simp [itemIndices_eq_nil hk]))

/-- A filter with every cell below `m` at 1 answers 1 for every item (R148 (d)). -/
theorem contains_of_saturated {s : State} (h : ∀ j < s.m, s.bits.get j = true) (d : List Byte) : s.contains d = true := by
  refine contains_iff.mpr (or_iff_not_imp_left.mpr fun hm j hj => ?_)
  exact h j (itemIndices_lt hm j hj)

/-- A filter with at least one bit and one hash, and no cell below `m` at 1, answers 0 for every item (R147). -/
theorem contains_eq_false_of_clear {s : State} (hm : s.bitCount ≠ 0) (hk : s.hashCount ≠ 0)
    (h : ∀ j < s.m, s.bits.get j = false) (d : List Byte) : s.contains d = false := by
  have hm' : s.m ≠ 0 := mt (State.m_eq_zero_iff s).mp hm
  have hk' : 0 < s.hashCount.toNat := Nat.pos_of_ne_zero fun e => hk (BitVec.eq_of_toNat_eq e)
  have hfirst := (mem_itemIndices_iff (d := d)).mpr ⟨0, hk', rfl⟩
  refine Bool.eq_false_iff.mpr fun hcon => ?_
  have hset := (contains_iff.mp hcon).resolve_left hm' _ hfirst
  exact absurd (h _ (itemIndices_lt hm' _ hfirst)) (ne_false_of_eq_true hset)

/-! ### INSERT and QUERY (R145, R147, R149) -/

section
variable {s : State} (hc : s.configured = true)
include hc

/-- INSERT on a configured filter with an item that can be read. -/
theorem exec_insert_ready (hr : s.ItemReady) : exec .insert s = .next (s.insertItem s.theItem).complete := by
  rw [exec_insert_configured hc, withItem_ready hr]

/-- QUERY on a configured filter with an item that can be read. -/
theorem exec_query_ready (hr : s.ItemReady) : exec .query s = .next (s.queryItem s.theItem).complete := by
  rw [exec_query_configured hc, withItem_ready hr]

/-- QUERY's RESULT on a configured filter with an item that can be read. -/
theorem exec_query_result (hr : s.ItemReady) : ∃ t, exec .query s = .next t ∧ t.result = s.contains s.theItem :=
  ⟨_, exec_query_ready hc hr, State.queryItem_result s _⟩

/-- QUERY answers 1 when the filter contains the item. -/
theorem exec_query_of_contains (hr : s.ItemReady) (h : s.contains s.theItem = true) :
    ∃ t, exec .query s = .next t ∧ t.result = true := h ▸ exec_query_result hc hr

/-- INSERT refuses an item that is too long (R113). -/
theorem exec_insert_tooLong (hlong : s.params.itemMax < s.itemLen.toNat) : exec .insert s = .next (s.failed .itemLen) := by
  rw [exec_insert_configured hc, withItem_tooLong hlong]

/-- QUERY refuses an item that is too long (R113). -/
theorem exec_query_tooLong (hlong : s.params.itemMax < s.itemLen.toNat) : exec .query s = .next (s.failed .itemLen) := by
  rw [exec_query_configured hc, withItem_tooLong hlong]

end

/-- Settles O13: INSERT's outcomes, and the cells the item indexes; the examples are computed. -/
theorem insertSetsIndexedCells : Obligations.InsertSetsIndexedCells := by
  refine ⟨rfl, malformedRaises 0x4, fun s hc => whenConfigured_false hc _, fun s => exec_insert_tooLong,
    fun s hc hr => ⟨_, exec_insert_ready hc hr, rfl, fun j => ?_⟩, by decide, by decide⟩
  rw [State.complete_bits, get_insertItem_iff, mem_itemIndices_iff, ne_eq, State.m_eq_zero_iff]
  rfl

/-- Settles O14: QUERY's outcomes, and its answer over the cells the item indexes; the examples are computed. -/
theorem queryTestsIndexedCells : Obligations.QueryTestsIndexedCells := by
  refine ⟨rfl, malformedRaises 0x5, fun s hc => whenConfigured_false hc _, fun s => exec_query_tooLong,
    fun s hc hr => ⟨_, exec_query_ready hc hr, rfl, ?_⟩, fun s hc hr hm hk hclear => ?_, by decide, by decide⟩
  · rw [State.complete_result, State.queryItem_result, contains_iff, State.m_eq_zero_iff]
    simp only [mem_itemIndices_iff]
    refine or_congr_right ⟨fun h i hi => h _ ⟨i, hi, rfl⟩, ?_⟩
    rintro h j ⟨i, hi, rfl⟩
    exact h i hi
  · rw [← contains_eq_false_of_clear hm hk hclear s.theItem]
    exact exec_query_result hc hr

/-- Settles O18: a degenerate filter contains every item, so INSERT has no cell left to set. -/
theorem degenerateFilterAnswersTrue : Obligations.DegenerateFilterAnswersTrue := by
  refine ⟨fun s hc hr hdeg => ?_, fun s i => exec_index_zero i⟩
  have hall := contains_of_degenerate hdeg s.theItem
  exact ⟨⟨_, exec_insert_ready hc hr, get_insertItem_of_contains hall⟩, exec_query_of_contains hc hr hall⟩

end Sys2Proof.Machine
end

section
/-! SUPPORT and the settling theorems. The bit-array window (spec/42_filter.md R160 to R162): its words packed most significant
bit first, a list of window writes as an OR over the cells, and the laws. -/

namespace Sys2Proof.Machine

/-- The offset of window word `w` (spec/20_memory.md R54). -/
abbrev windowOffset (w : Nat) : Word := BitVec.ofNat 32 (0x20000000 + 4 * w)

/-! ### A word of cells (R160) -/

/-- Two words that agree on the bits of all 32 cells, most significant first, are equal. -/
theorem eq_of_cells {x y : Word} (h : ∀ j < 32, x.getLsbD (31 - j) = y.getLsbD (31 - j)) : x = y := by
  refine BitVec.eq_of_getLsbD_eq fun i hi => ?_
  have hi' := h (31 - i) (by omega)
  rwa [show 31 - (31 - i) = i by omega] at hi'

/-- Bit `31-j` of `mask_w` is 1 when cell `32w + j` lies below `m` (R162). -/
theorem getLsbD_windowMask (m w : Nat) {j : Nat} (hj : j < 32) :
    (windowMask m w).getLsbD (31 - j) = decide (32 * w + j < m) := by
  rw [windowMask, BitVec.getLsbD_eq_getMsbD, show 32 - 1 - (31 - j) = j by omega, BitVec.getMsbD_ofFnBE]
  simp [hj, show 31 - j < 32 by omega]

/-! ### The artifact's bytes (R207, R208) -/

/-- Byte `i` of a word written most significant byte first. -/
theorem getElem?_be32 (x : Word) {i : Nat} (hi : i < 4) : (be32 x)[i]? = some (x.extractLsb' (8 * (3 - i)) 8) := by
  interval_cases i <;> rfl

/-- Words written one after the other take four bytes each. -/
theorem length_flatMap_be32 (f : Nat → Word) (n : Nat) : ((List.range n).flatMap fun w => be32 (f w)).length = 4 * n := by
  simp [List.length_flatMap, be32, Nat.mul_comm]

/-- Byte `i` of word `w` among words written one after the other. -/
theorem getElem?_flatMap_be32 (f : Nat → Word) {n w i : Nat} (hw : w < n) (hi : i < 4) :
    ((List.range n).flatMap fun w => be32 (f w))[4 * w + i]? = some ((f w).extractLsb' (8 * (3 - i)) 8) := by
  induction n with
  | zero => omega
  | succ n ih =>
    have hlen := length_flatMap_be32 f n
    rw [List.range_succ, List.flatMap_append, List.flatMap_singleton]
    obtain hlt | rfl := Nat.lt_succ_iff_lt_or_eq.mp hw
    · rw [List.getElem?_append_left (by omega), ih hlt]
    · rw [List.getElem?_append_right (by omega), hlen, Nat.add_sub_cancel_left, getElem?_be32 _ hi]

/-- Byte `4w + i` of the bit region is byte `i` of window word `w`, most significant first (R160, R208). -/
theorem getElem?_bitRegion (b : BitArray) {m w i : Nat} (hi : i < 4) (h : 4 * w + i < (m + 7) / 8) :
    (bitRegion b m)[4 * w + i]? = some ((b.word m w).extractLsb' (8 * (3 - i)) 8) := by
  rw [bitRegion, List.getElem?_take_of_lt h, getElem?_flatMap_be32 _ (by omega) hi]

/-! ### One access (R160, R161) -/

section
variable {s : State} {w : Nat} (hw : w < 2 ^ 27) (hb : s.busy = false) (hc : s.configured = false)
include hw hb hc

/-- Before CONFIG a window read is refused (R141, R160). -/
theorem hostRead_window_refused : hostRead (windowOffset w) 4 s = { s.raise .notConfigured with v := 0 } :=
  hostRead_refused (mapAccess_window _ hw) hb (by simp [readRule, hc])

/-- Before CONFIG a window write is refused (R141, R161). -/
theorem hostWrite_window_refused (v : Word) : hostWrite (windowOffset w) 4 v s = s.raise .notConfigured :=
  hostWrite_refused (mapAccess_window _ hw) v hb (by simp [writeRule, hc])

end

/-- Settles O43: a window read answers the word of its cells, whose bytes stand in the bit region. -/
theorem windowReadsPackedCells : Obligations.WindowReadsPackedCells := fun s w hw hb =>
  ⟨hostRead_window_refused hw hb, fun hc => ⟨_, hostRead_window s w hw hb hc,
    fun j hj => BitArray.getLsbD_word s.bits s.m w j hj, fun _ hi h => getElem?_bitRegion s.bits hi h⟩⟩

/-- Settles O44: a window write sets the cells its data names, all in its own word. -/
theorem windowWriteOrsCells : Obligations.WindowWriteOrsCells := by
  refine fun s w v hw hb => ⟨fun hc => hostWrite_window_refused hw hb hc v,
    fun hc => ⟨_, hostWrite_window s w v hw hb hc, fun j hj => ?_, fun i hi => ?_⟩⟩
  · rw [BitArray.get_setAll_windowCells, show (32 * w + j) / 32 = w by omega, show (32 * w + j) % 32 = j by omega,
      decide_eq_true rfl, Bool.true_and, State.m]
  · rw [BitArray.get_setAll_windowCells, decide_eq_false hi, Bool.false_and, Bool.false_and, Bool.or_false]

/-- A window word after a window write: the old word or-ed with the masked data (R162 (a)). -/
theorem BitArray.word_setAll_windowCells (b : BitArray) (m w : Nat) (v : Word) :
    (b.setAll (windowCells m w v)).word m w = b.word m w ||| (v &&& windowMask m w) := by
  refine eq_of_cells fun j hj => ?_
  rw [BitVec.getLsbD_or, BitVec.getLsbD_and, getLsbD_word _ _ _ _ hj, getLsbD_word _ _ _ _ hj, getLsbD_windowMask _ _ hj,
    get_setAll_windowCells, show (32 * w + j) / 32 = w by omega, show (32 * w + j) % 32 = j by omega, decide_eq_true rfl,
    Bool.true_and, Bool.and_or_distrib_left, ← Bool.and_assoc, Bool.and_self, Bool.and_comm (v.getLsbD _)]

/-! ### A list of window writes (R161) -/

/-- `Ored s f n t`: `t` is `s` with the cells below `m` that words `f 0 .. f (n-1)` name set to 1, and nothing else changed. -/
structure Ored (s : State) (f : Nat → Word) (n : Nat) (t : State) : Prop where
  frame : t = { s with bits := t.bits }
  cells : ∀ i, t.bits.get i = (s.bits.get i || (decide (i / 32 < n) && decide (i < s.m) && (f (i / 32)).getLsbD (31 - i % 32)))

section
variable {s t : State} {f : Nat → Word} {n : Nat} (h : Ored s f n t)
include h

theorem Ored.busy : t.busy = s.busy := by rw [h.frame]
theorem Ored.configured : t.configured = s.configured := by rw [h.frame]
theorem Ored.m : t.m = s.m := by rw [h.frame]; rfl

end

/-- Before the first write. -/
theorem ored_zero (s : State) (f : Nat → Word) : Ored s f 0 s := ⟨rfl, fun i => by simp⟩

section
variable {s : State} (hb : s.busy = false) (hc : s.configured = true) (f : Nat → Word)
include hb hc

/-- The next window write sets the cells of the next word. -/
theorem Ored.write {n : Nat} {t : State} (h : Ored s f n t) (hn : n < 2 ^ 27) :
    Ored s f (n + 1) (perform (w32 (windowOffset n) (f n)) t) := by
  have hwrite := hostWrite_window t n (f n) hn (h.busy.trans hb) (h.configured.trans hc)
  rw [w32, perform, hwrite]
  refine ⟨by rw [h.frame], fun i => ?_⟩
  rw [BitArray.get_setAll_windowCells, h.m, h.cells, Bool.or_assoc]
  congr 1
  obtain hlt | heq | hgt := Nat.lt_trichotomy (i / 32) n
  · simp [hlt, hlt.ne, hlt.trans n.lt_succ_self]
  · simp [heq]
  · simp [hgt.ne', hgt.not_gt, show ¬ i / 32 < n + 1 by omega]

/-- Writing a word to every place of the window names cells of all words. -/
theorem ored_performAll :
    Ored s f ((s.m + 31) / 32) (performAll ((List.range ((s.m + 31) / 32)).map fun w => w32 (windowOffset w) (f w)) s) := by
  have hm : s.m < 2 ^ 32 := s.bitCount.isLt
  exact performAll_range (P := fun n t => Ored s f n t) (ored_zero s f) fun n hn t h => h.write hb hc f (by omega)

end

/-- When a word is written to every place, each cell below `m` becomes its old value or its bit. -/
theorem Ored.get {s t : State} {f : Nat → Word} (h : Ored s f ((s.m + 31) / 32) t) {j : Nat} (hj : j < s.m) :
    t.bits.get j = (s.bits.get j || (f (j / 32)).getLsbD (31 - j % 32)) := by
  rw [h.cells, decide_eq_true hj, decide_eq_true (by omega), Bool.true_and, Bool.true_and]

/-! ### The laws (R162) -/

/-- The bit of cell `j` in the word a window read answers (R160). -/
theorem getLsbD_hostRead_window {s : State} (hb : s.busy = false) (hc : s.configured = true) {j : Nat} (hj : j < s.m) :
    (hostRead (windowOffset (j / 32)) 4 s).v.getLsbD (31 - j % 32) = s.bits.get j := by
  have hm : s.m < 2 ^ 32 := s.bitCount.isLt
  rw [windowOffset, hostRead_window s (j / 32) (by omega) hb hc, BitArray.getLsbD_word _ _ _ _ (Nat.mod_lt j (by decide)),
    Nat.div_add_mod, decide_eq_true hj, Bool.true_and]

/-- A word of ones has a 1 for every cell. -/
theorem getLsbD_ones (j : Nat) : (0xFFFFFFFF : Word).getLsbD (31 - j % 32) = true := by
  have hones : (0xFFFFFFFF : Word) = BitVec.allOnes 32 := by decide
  rw [hones, BitVec.getLsbD_allOnes, decide_eq_true (by omega)]

/-- Settles O45: (a) on one word, (b) and (c) on the list of all words. -/
theorem windowLaws : Obligations.WindowLaws := by
  refine ⟨fun s w v hw hb hc => ?_, fun s r hb hc hb' hc' hm hclear j hj => ?_, fun s hb hc => ?_⟩
  · rw [hostWrite_window s w v hw hb hc, hostRead_window s w hw hb hc,
      hostRead_window { s with bits := s.bits.setAll (windowCells s.m w v) } w hw hb hc]
    exact BitArray.word_setAll_windowCells s.bits s.m w v
  · rw [← hm]
    have hjr : j < r.m := by rwa [← hm] at hj
    have hcopied := (ored_performAll hb' hc' fun w => (hostRead (windowOffset w) 4 s).v).get hjr
    rw [hclear j hjr, Bool.false_or] at hcopied
    exact hcopied.trans (getLsbD_hostRead_window hb hc hj)
  · have hored := ored_performAll hb hc fun _ => 0xFFFFFFFF
    have hset (j) (hj : j < s.m) := (hored.get hj).trans (by rw [getLsbD_ones, Bool.or_true])
    refine ⟨_, rfl, hset, fun hr => exec_query_of_contains (hored.configured.trans hc) hr ?_⟩
    exact contains_of_saturated (hored.m ▸ hset) _

end Sys2Proof.Machine
end

section
/-! SUPPORT and the settling theorems. Before CONFIG, and the laws of the filter (spec/42_filter.md R141, R146, R148): what INSERT
of a list of items leaves, and that no step but a reset makes the filter forget an item. -/

namespace Sys2Proof.Machine

/-! ### Before CONFIG (R141) -/

/-- Settles O17: the configured precondition and the window's rule refuse; the other commands do not ask. -/
theorem unconfiguredUseIsRefused : Obligations.UnconfiguredUseIsRefused := by
  refine ⟨fun s hc => ⟨whenConfigured_false hc _, whenConfigured_false hc _, fun i => whenConfigured_false hc _,
    fun hb w hw v => ⟨hostRead_window_refused hw hb hc, hostWrite_window_refused hw hb hc v⟩⟩, fun s hc => ?_⟩
  exact ⟨⟨_, rfl, rfl⟩, fun hm => ⟨_, execConfig_of_le hc hm, rfl, rfl⟩,
    fun hr => ⟨⟨_, exec_hash_ready hr, rfl⟩, ⟨_, withItem_ready hr _, rfl⟩⟩⟩

/-! ### What the filter keeps of an item (R145, R148) -/

section
variable {s t : State} (hp : t.params = s.params) (hm : t.bitCount = s.bitCount) (hk : t.hashCount = s.hashCount)
include hp hm hk

/-- The cells an item indexes depend on the parameters, `bit_count` and `hash_count` alone (R132). -/
theorem itemIndices_congr (d : List Byte) : t.itemIndices d = s.itemIndices d := by
  simp only [State.itemIndices, State.mh3, State.k, State.m, hp, hm, hk]

/-- A filter of the same configuration in which no cell went to 0 contains what it contained. -/
theorem contains_mono (hbits : ∀ j, s.bits.get j = true → t.bits.get j = true) {d : List Byte}
    (h : s.contains d = true) : t.contains d = true := by
  rw [contains_iff] at h ⊢
  rw [itemIndices_congr hp hm hk, State.m, hm]
  exact h.imp_right fun hall j hj => hbits j (hall j hj)

end

/-- After INSERT the filter contains the item (R145). -/
theorem contains_insertItem (s : State) (d : List Byte) : (s.insertItem d).contains d = true := by
  refine contains_iff.mpr (or_iff_not_imp_left.mpr fun hm j hj => get_insertItem_iff.mpr (.inr ⟨?_, ?_⟩))
  · rwa [State.m, State.insertItem_bitCount] at hm
  · rwa [itemIndices_congr (State.insertItem_params s d) (State.insertItem_bitCount s d) (State.insertItem_hashCount s d)]
      at hj

/-! ### No false negatives (R148) -/

/-- No step changes the parameters of the implementation (R20). -/
theorem step_params {s t : State} (h : step s = .next t) : t.params = s.params := by
  cases step_moves h with
  | failed | idle => rfl
  | completed ht hi hu =>
    cases hu with
    | nop | config | hash | hashPair | insert | query | index => simp
  | host ht hh hu =>
    cases hu with
    | view | reset => rfl
    | write v hw => exact writeTarget_params _ v s.countdown

/-- A configured filter that contains an item, with no reset to come. -/
def KeepsItem (d : List Byte) (s : State) : Prop := s.configured = true ∧ s.NoReset ∧ s.contains d = true

/-- Every step keeps the items a configured filter contains: its configuration stays and its cells are only set (R39, R40). -/
theorem step_keeps_item (d : List Byte) (s t : State) (hs : KeepsItem d s) (h : step s = .next t) : KeepsItem d t := by
  obtain ⟨hc, hreset, hitem⟩ := hs
  obtain ⟨hc', hm, hk, hreset'⟩ := step_keeps_configuredWith _ _ s t ⟨hc, rfl, rfl, hreset⟩ h
  have hset (j) := (cellsAreNeverCleared s t j hc (not_resetNext hreset) h).1
  exact ⟨hc', hreset', contains_mono (step_params h) hm hk hset hitem⟩

/-- Settles O20, by induction on the run for a filter that contains the inserted item. -/
theorem queryHasNoFalseNegatives : Obligations.QueryHasNoFalseNegatives := by
  refine ⟨fun s s1 s2 s3 n hc hreset hr hinsert hrun hr2 hitem hquery => ?_,
    fun s hc hr hset => exec_query_of_contains hc hr (contains_of_saturated hset _)⟩
  cases (exec_insert_ready hc hr).symm.trans hinsert
  have hs1 : KeepsItem s.theItem (s.insertItem s.theItem).complete :=
    ⟨hc, hreset, contains_insertItem s _⟩
  obtain ⟨hc2, -, hcontains⟩ := run_keeps (step_keeps_item s.theItem) hs1 hrun
  cases (exec_query_ready hc2 hr2).symm.trans hquery
  rw [State.complete_result, State.queryItem_result, hitem, hcontains]

/-! ### Inserting a list of items (R146) -/

/-- `Inserted s ds t`: `t` is the filter of `s`, configured as it was, with the cells the items `ds` index set to 1. -/
structure Inserted (s : State) (ds : List (List Byte)) (t : State) : Prop where
  params : t.params = s.params
  busy : t.busy = s.busy
  configured : t.configured = s.configured
  bitCount : t.bitCount = s.bitCount
  hashCount : t.hashCount = s.hashCount
  cells : ∀ j, t.bits.get j = true ↔ s.bits.get j = true ∨ (s.m ≠ 0 ∧ ∃ d ∈ ds, j ∈ s.itemIndices d)

/-- Filling the item buffer inserts nothing. -/
theorem inserted_nil (s : State) (m : Memory) (len : Word) : Inserted s [] { s with item := m, itemLen := len } :=
  ⟨rfl, rfl, rfl, rfl, rfl, fun j => by simp⟩

/-- Some items and then others. -/
theorem Inserted.trans {s t u : State} {ds es : List (List Byte)} (h : Inserted s ds t) (h' : Inserted t es u) :
    Inserted s (ds ++ es) u := by
  refine ⟨h'.params.trans h.params, h'.busy.trans h.busy, h'.configured.trans h.configured,
    h'.bitCount.trans h.bitCount, h'.hashCount.trans h.hashCount, fun j => ?_⟩
  have hm : t.m = s.m := congrArg BitVec.toNat h.bitCount
  have hidx (d) := itemIndices_congr h.params h.bitCount h.hashCount d
  simp only [h'.cells, h.cells, hm, hidx, List.mem_append, or_and_right, exists_or, and_or_left, or_assoc]

/-- INSERT of one item, while no other command is in flight. -/
theorem inserted_insertItem {s : State} (hb : s.busy = false) (d : List Byte) : Inserted s [d] (s.insertItem d).complete :=
  ⟨rfl, hb.symm, rfl, rfl, rfl, fun j => by
    rw [State.complete_bits, get_insertItem_iff]
    simp⟩

/-- An item loaded by R91's `item` and inserted (R91, R145). -/
theorem exec_insert_loaded {s : State} {d : List Byte} (hp : s.params.Valid) (hb : s.busy = false)
    (hc : s.configured = true) (hd : d.length ≤ s.params.itemMax) :
    ∃ t, exec .insert (performAll (item d) s) = .next t ∧ Inserted s [d] t := by
  obtain ⟨t, rfl, hr, hitem, hframe, -⟩ := itemPseudoInstructionLoadsTheItem s d hp hb hd
  generalize performAll (item d) s = t at *
  have hload : Inserted s [] t := hframe ▸ inserted_nil s _ _
  refine ⟨_, exec_insert_ready (hload.configured.trans hc) hr, ?_⟩
  rw [hitem]
  exact hload.trans (inserted_insertItem (hload.busy.trans hb) d)

/-- A list of items that fit the item buffer is inserted whole. -/
theorem insertSequence_inserted {ds : List (List Byte)} {s : State} (hp : s.params.Valid) (hb : s.busy = false)
    (hc : s.configured = true) (hd : ∀ d ∈ ds, d.length ≤ s.params.itemMax) :
    ∃ t, insertSequence ds s = .next t ∧ Inserted s ds t := by
  induction ds generalizing s with
  | nil => exact ⟨s, rfl, inserted_nil s s.item s.itemLen⟩
  | cons d ds ih =>
    obtain ⟨hd0, hds⟩ := List.forall_mem_cons.mp hd
    obtain ⟨t, ht, hins⟩ := exec_insert_loaded hp hb hc hd0
    obtain ⟨u, hu, hins'⟩ := ih (hins.params ▸ hp) (hins.busy.trans hb) (hins.configured.trans hc) (hins.params ▸ hds)
    exact ⟨u, by rw [insertSequence, ht]; exact hu, hins.trans hins'⟩

/-- INSERT of the same item changes no cell any more: either it fails, or the filter contains the item. -/
theorem exec_insert_twice {s t u : State} (h : exec .insert s = .next t) (h' : exec .insert t = .next u) (j : Nat) :
    u.bits.get j = t.bits.get j := by
  obtain ⟨hc', hr', rfl⟩ | ⟨-, rfl⟩ | ⟨-, -, rfl⟩ := execInsert_next h'
  · refine get_insertItem_of_contains ?_ j
    obtain ⟨-, -, rfl⟩ | ⟨hraw, rfl⟩ | ⟨-, hlong, rfl⟩ := execInsert_next h
    · exact contains_insertItem s s.theItem
    · exact absurd hraw (ne_false_of_eq_true hc')
    · exact absurd hr'.1 hlong.not_ge
  · rfl
  · rfl

/-- INSERT only sets cells (R146). -/
theorem exec_insert_sets {s t : State} (h : exec .insert s = .next t) {j : Nat} (hj : s.bits.get j = true) :
    t.bits.get j = true := by
  obtain ⟨-, -, rfl⟩ | ⟨-, rfl⟩ | ⟨-, -, rfl⟩ := execInsert_next h
  · exact get_insertItem_iff.mpr (.inl hj)
  · exact hj
  · exact hj

/-- On a configured filter INSERT of an item of legal length that cannot be read is the modelling fault (R113, R182). -/
theorem exec_insert_unwritten {s : State} (hc : s.configured = true) (hlen : s.itemLen.toNat ≤ s.params.itemMax)
    (hr : ¬ s.ItemReady) :
    ∃ a < s.itemLen.toNat, s.item.read a = none ∧ exec .insert s = .fault (.unwrittenItemCell a) := by
  rw [exec_insert_configured hc]
  obtain ⟨t, ht⟩ | ⟨a, ha, hf⟩ := withItem_cases s s.insertItem
  · obtain ⟨hready, -⟩ | ⟨hlong, -⟩ := withItem_next ht
    · exact absurd hready hr
    · exact absurd hlen hlong.not_ge
  · obtain ⟨-, hlt, hnone, -⟩ := itemOperand_unwritten ha
    exact ⟨a, hlt, hnone, hf⟩

/-- Settles O19: the cells after a list of items name its members alone. -/
theorem insertLaws : Obligations.InsertLaws := by
  refine ⟨fun s t u => exec_insert_twice, fun s t h j => exec_insert_sets h, fun s ds es hp hc hb hd hmem => ?_,
    fun s hc hr => ⟨_, exec_insert_ready hc hr, State.insertItem_err s s.theItem⟩, fun s => exec_insert_unwritten⟩
  obtain ⟨t, ht, hds⟩ := insertSequence_inserted hp hb hc hd
  obtain ⟨u, hu, hes⟩ := insertSequence_inserted hp hb hc fun d he => hd d ((hmem d).mpr he)
  refine ⟨t, u, ht, hu, fun j => ?_⟩
  rw [Bool.eq_iff_iff, hds.cells, hes.cells]
  simp only [hmem]

end Sys2Proof.Machine
end

section
/-! SUPPORT and the settling theorems. Errors (spec/60_exceptions.md R171 to R177): no command or access depends on ERR, one that
records an error does nothing else, and the only accepted access that writes ERR is the STATUS write. -/

namespace Sys2Proof.Machine

/-! ### ERR is read by STATUS alone (R175) -/

section
variable (s : State) (e : ErrCode)

/-- No command reads ERR: each branches on other fields, and its effect leaves ERR alone. -/
theorem exec_err (i : Instr) : mapNext State.dropErr (exec i { s with err := e }) = mapNext State.dropErr (exec i s) := by
  cases i with
  | nop => rfl
  | config => exact mapNext_ite_congr rfl (mapNext_ite_congr rfl rfl)
  | hash | hashPair => exact mapNext_withItem_congr rfl (fun _ => rfl) rfl
  | insert | query => exact mapNext_ite_congr (mapNext_withItem_congr rfl (fun _ => rfl) rfl) rfl
  | index n => exact mapNext_ite_congr (mapNext_ite_congr rfl rfl) rfl

/-- No write depends on ERR, and a STATUS write overwrites it (R25). -/
theorem hostWrite_err (off : Word) (n : Nat) (v : Word) :
    (hostWrite off n v { s with err := e }).dropErr = (hostWrite off n v s).dropErr := by
  refine hostWrite_congr (checkWrite_congr rfl rfl rfl off n) (fun _ => rfl) (fun t => ?_)
  cases t with
  | reg r => cases r <;> rfl
  | itemByte | itemWord | windowWord => rfl

/-- No read at another offset than STATUS's shows ERR (R25). -/
theorem hostRead_err {off : Word} (n : Nat) (hoff : off ≠ Reg.status.offset) :
    (hostRead off n { s with err := e }).dropErr = (hostRead off n s).dropErr := by
  refine hostRead_congr (checkRead_congr rfl rfl rfl off n) (fun t ht => ?_) (fun _ => rfl) (fun _ _ => rfl)
  cases t with
  | reg r =>
    cases r with
    | status =>
      obtain ⟨hmap, -, -⟩ := checkRead_ok ht
      exact absurd (mapAccess_eq_reg hmap).1 hoff
    | id | version | cmd | bitCount | hashCount | itemLen | seed | hashOut | h1 | h2 | idxOut => rfl
  | itemByte | itemWord | windowWord => rfl

end

/-- Settles O22: `raise` by its definition, and what reads ERR is a STATUS read alone. -/
theorem firstErrorIsKept : Obligations.FirstErrorIsKept :=
  ⟨fun _ _ => rfl, fun i s e => exec_err s e i, fun off n v s e => hostWrite_err s e off n v,
    fun _ n s e hoff => hostRead_err s e n hoff⟩

/-! ### What writes ERR (R171, R176, R177) -/

/-- A failed command records its error where none was recorded (R175, R176). -/
theorem failed_err_of_none {s : State} (h : s.err = .none) (c : ErrCode) : (s.failed c).err = c := if_pos h

/-- A failed command keeps an error recorded before (R175). -/
theorem failed_err_of_ne_none {s : State} (h : s.err ≠ .none) (c : ErrCode) : (s.failed c).err = s.err := if_neg h

/-- A command that completes leaves ERR alone (R171). -/
theorem Completes.err {s u : State} {i : Instr} (h : Completes s i u) : u.err = s.err := by
  cases h with
  | nop | config | hash | index => rfl
  | hashPair | insert | query => simp

/-- A write that passes its checks leaves ERR alone, but that a STATUS write clears it (R25, R177). -/
theorem writeTarget_err (t : Target) (v : Word) (s : State) :
    (t = .reg .status ∧ (writeTarget t v s).err = .none) ∨ (writeTarget t v s).err = s.err := by
  cases t with
  | reg r =>
    cases r with
    | status => exact .inl ⟨rfl, rfl⟩
    | id | version | cmd | bitCount | hashCount | itemLen | seed | hashOut | h1 | h2 | idxOut => exact .inr rfl
  | itemByte | itemWord | windowWord => exact .inr rfl

/-- An engine step that answers a next state raises one error and does nothing else, or its command completes (R80, R176). -/
theorem engineStep_next {s t : State} (h : engineStep s = .next t) :
    (∃ c, t = s.failed c) ∨ ∃ i u, Completes s i u ∧ t = u.complete := by
  obtain ⟨i, -, e⟩ | ⟨_, -, e⟩ := engineStep_cases s
  · exact (exec_next (e.symm.trans h)).imp_right fun ⟨u, hu⟩ => ⟨i, u, hu⟩
  · exact .inl ⟨.illegalCmd, (Host.Outcome.next.inj (e.symm.trans h)).symm⟩

/-- Settles O23: a command or access that does not fail leaves ERR at 0. -/
theorem errorsArePrecise : Obligations.ErrorsArePrecise := by
  refine ⟨fun s t hs h ht => ?_, fun off n v s u hs h hu => ?_, fun off n s u hs h hu => ?_⟩
  · obtain ⟨c, rfl⟩ | ⟨i, u, hu, rfl⟩ := engineStep_next h
    · rfl
    · exact absurd (hu.err.trans hs) ht
  · subst h
    obtain ⟨c, -, e⟩ | ⟨t, -, e⟩ := hostWrite_cases off n v s
    · rw [e]
      rfl
    · rw [e] at hu
      obtain ⟨-, hclear⟩ | hkeep := writeTarget_err t v s
      · exact absurd hclear hu
      · exact absurd (hkeep.trans hs) hu
  · subst h
    obtain ⟨c, -, e⟩ | ⟨t, -, e⟩ := hostRead_cases off n s
    · rw [e]
      rfl
    · rw [e] at hu
      exact absurd hs hu

/-- A step that changes a recorded error is an accepted STATUS write or a platform reset (R177). -/
theorem step_clears_err {s t : State} (h : step s = .next t) (hs : s.err ≠ .none) (ht : t.err ≠ s.err) :
    (t.err = .none ∧ s.busy = false ∧ ∃ v rest, s.host = .write 0x0C 4 v :: rest) ∨ s.ResetNext := by
  cases step_moves h with
  | failed c => exact absurd (failed_err_of_ne_none hs c) ht
  | completed _ _ hu => exact absurd hu.err ht
  | idle => exact absurd rfl ht
  | @host op rest u hturn hh hu =>
    cases hu with
    | view _ e _ _ he => exact absurd (he hs) ht
    | @write off n t v hw =>
      obtain ⟨rfl, hclear⟩ | hkeep := writeTarget_err t v s.countdown
      · obtain ⟨hmap, hbusy, -⟩ := checkWrite_ok hw
        obtain ⟨rfl, rfl⟩ := mapAccess_eq_reg hmap
        exact .inl ⟨hclear, hbusy, v, rest, hh⟩
      · exact absurd hkeep ht
    | reset => exact .inr (resetNext_of_host hturn hh)

/-- Settles O24: STATUS as the host writes it, reset, and the moves that change a recorded error. -/
theorem errIsClearedOnlyByStatusWriteOrReset : Obligations.ErrIsClearedOnlyByStatusWriteOrReset :=
  ⟨fun _ v hb => hostWrite_stores (r := .status) v hb rfl (.inl rfl),
    fun s v hb => hostWrite_refused_busy (mapAccess_reg s.params .status) v hb,
    fun _ => rfl, fun _ => rfl, fun _ _ => step_clears_err⟩

/-! ### The errors of the commands that read the item (R172) -/

section
variable {s t : State} {e : List Byte → State} (hs : s.err = .none)
include hs

/-- A command that reads the item and leaves ERR alone records ITEM_LEN or nothing (R113, R172). -/
theorem withItem_err (h : withItem s e = .next t) (he : ∀ d, (e d).err = s.err) : t.err = .none ∨ t.err = .itemLen := by
  obtain ⟨-, rfl⟩ | ⟨-, rfl⟩ := withItem_next h
  · exact .inl ((he _).trans hs)
  · exact .inr (failed_err_of_none hs _)

/-- Behind the configured precondition it may record NOT_CONFIGURED instead (R141, R172). -/
theorem whenConfigured_withItem_err (h : whenConfigured s (withItem s e) = .next t) (he : ∀ d, (e d).err = s.err) :
    t.err = .none ∨ t.err = .notConfigured ∨ t.err = .itemLen := by
  obtain ⟨-, e'⟩ | e' := whenConfigured_cases s (withItem s e)
  · exact (withItem_err hs (e'.symm.trans h) he).imp_right .inr
  · cases e'.symm.trans h
    exact .inr (.inl (failed_err_of_none hs _))

end

/-- Settles O25: the four commands read the item, two of them behind the configured precondition, and no effect writes ERR. -/
theorem hashingRaisesNoErrorOfItsOwn : Obligations.HashingRaisesNoErrorOfItsOwn := by
  refine ⟨fun i s t hi hs h => ?_, fun s hc hr => ⟨⟨_, exec_insert_ready hc hr, State.insertItem_err s s.theItem⟩,
    ⟨_, exec_query_ready hc hr, State.queryItem_err s s.theItem⟩⟩⟩
  obtain rfl | rfl | rfl | rfl := hi
  · exact (withItem_err hs h fun _ => rfl).imp_right .inr
  · exact (withItem_err hs h (State.writePair_err s)).imp_right .inr
  · exact whenConfigured_withItem_err hs h (State.insertItem_err s)
  · exact whenConfigured_withItem_err hs h (State.queryItem_err s)

end Sys2Proof.Machine
end

section
/-! The settling theorem of the platform reset (spec/70_reset_and_hazards.md R190). -/

namespace Sys2Proof.Machine

/-- With a host event to come, an idle block, or one whose delay has not run out, leaves the move to the host (log 1). -/
theorem engineTurn_eq_false {s : State} {op : HostOp} {rest : List HostOp} (hd : s.busy = false ∨ s.engineDelay ≠ 0)
    (hh : s.host = op :: rest) : engineTurn s = false := by
  obtain hb | hdelay := hd
  · simp [engineTurn, hb]
  · simp [engineTurn, hdelay, hh]

/-- A reset event leaves the reset state, the host's fields as they were (R190). -/
theorem hostMove_platformReset (rest : List HostOp) (s : State) :
    hostMove .platformReset rest s =
      { State.resetWith s.params with host := rest, v := s.v, schedule := s.schedule, draws := s.draws } := rfl

/-- Settles O33: the next move is the reset event, whatever the command in flight. -/
theorem platformResetRestoresResetState : Obligations.PlatformResetRestoresResetState := by
  intro s rest hd hh
  rw [step_host (engineTurn_eq_false hd hh) hh, hostMove_platformReset]

end Sys2Proof.Machine
end

section
/-! SUPPORT and the settling theorem. The host's artifact codec (spec/70_reset_and_hazards.md R207 to R209): a header of twelve
bytes, then the bit region; and construction from raw cells through the window (spec/42_filter.md R144). -/

namespace Sys2Proof.Machine

/-! ### The bit region (R207, R208) -/

theorem length_bitRegion (b : BitArray) (m : Nat) : (bitRegion b m).length = (m + 7) / 8 := by
  rw [bitRegion, List.length_take, length_flatMap_be32]
  omega

/-- The reader finds each cell of the filter in the region, whatever bytes follow it (R208, R209). -/
theorem regionCell_bitRegion_append (b : BitArray) (extra : List Byte) {m j : Nat} (hj : j < m) :
    regionCell (bitRegion b m ++ extra) j = b.get j := by
  have hq : j / 8 = 4 * (j / 32) + j / 8 % 4 := by omega
  have hlt : 4 * (j / 32) + j / 8 % 4 < (m + 7) / 8 := by omega
  have hbyte : byteAt (bitRegion b m ++ extra) (j / 8) = (b.word m (j / 32)).extractLsb' (8 * (3 - j / 8 % 4)) 8 := by
    rw [byteAt, List.getD_eq_getElem?_getD, hq, List.getElem?_append_left (hlt.trans_eq (length_bitRegion b m).symm),
      getElem?_bitRegion b (Nat.mod_lt _ (by decide)) hlt, Option.getD_some, ← hq]
  have hbit : 8 * (3 - j / 8 % 4) + (7 - j % 8) = 31 - j % 32 := by omega
  rw [regionCell, hbyte, BitVec.getLsbD_extractLsb', hbit, BitArray.getLsbD_word _ _ _ _ (Nat.mod_lt j (by decide)),
    Nat.div_add_mod, decide_eq_true (show 7 - j % 8 < 8 by omega), decide_eq_true hj, Bool.true_and, Bool.true_and]

/-! ### The header (R207) -/

/-- The twelve bytes before the bit region: the magic, version 1, `hash_count` and `bit_count`. -/
def artifactHeader (k : BitVec 16) (m : Word) : List Byte := magic ++ be16 1 ++ be16 k ++ be32 m

theorem writeArtifact_eq (s : State) :
    writeArtifact s = artifactHeader s.hashCount s.bitCount ++ bitRegion s.bits s.m := rfl

theorem length_artifactHeader (k : BitVec 16) (m : Word) : (artifactHeader k m).length = 12 := rfl

theorem take_four_artifactHeader_append (k : BitVec 16) (m : Word) (region : List Byte) :
    (artifactHeader k m ++ region).take 4 = magic := rfl

/-- The two bytes of a 16-bit number, put together again. -/
theorem be16_append (x : BitVec 16) : x.extractLsb' 8 8 ++ x.extractLsb' 0 8 = x := by
  rw [BitVec.extractLsb'_append_extractLsb'_eq_extractLsb' (by decide)]
  exact BitVec.extractLsb'_eq_self

/-- The four bytes of a 32-bit number, put together again. -/
theorem be32_append (x : Word) :
    x.extractLsb' 24 8 ++ x.extractLsb' 16 8 ++ x.extractLsb' 8 8 ++ x.extractLsb' 0 8 = x := by
  rw [BitVec.extractLsb'_append_extractLsb'_eq_extractLsb' (by decide),
    BitVec.extractLsb'_append_extractLsb'_eq_extractLsb' (by decide),
    BitVec.extractLsb'_append_extractLsb'_eq_extractLsb' (by decide)]
  exact BitVec.extractLsb'_eq_self

/-! ### The reader (R209) -/

theorem readArtifact_wrong_magic {a : List Byte} (h : a.take 4 ≠ magic) : readArtifact a = .error .magicMismatch := if_pos h

theorem readArtifact_short {a : List Byte} (h : a.take 4 = magic) (hlen : a.length < 12) :
    readArtifact a = .error .truncated := by
  rw [readArtifact, if_neg (not_not.mpr h), if_pos hlen]

/-- Behind a header the reader needs the bytes of `bit_count` cells, and answers them with the header's parameters. -/
theorem readArtifact_header_append (k : BitVec 16) (m : Word) (region : List Byte) :
    readArtifact (artifactHeader k m ++ region) =
      if region.length < (m.toNat + 7) / 8 then .error .truncated
      else .ok { bitCount := m, hashCount := k, cells := (List.range m.toNat).map (regionCell region) } := by
  have hk : byteAt (artifactHeader k m ++ region) 6 ++ byteAt (artifactHeader k m ++ region) 7 = k := be16_append k
  have hm : byteAt (artifactHeader k m ++ region) 8 ++ byteAt (artifactHeader k m ++ region) 9 ++
      byteAt (artifactHeader k m ++ region) 10 ++ byteAt (artifactHeader k m ++ region) 11 = m := be32_append m
  have hdrop : (artifactHeader k m ++ region).drop 12 = region := rfl
  have hlen : (artifactHeader k m ++ region).length = 12 + region.length := by
    rw [List.length_append, length_artifactHeader]
  rw [readArtifact, if_neg (not_not.mpr (take_four_artifactHeader_append k m region)), if_neg (by omega)]
  simp only [hk, hm, hdrop, hlen, Nat.add_lt_add_iff_left]

/-! ### Round trip and truncation -/

theorem length_writeArtifact (s : State) : (writeArtifact s).length = 12 + (s.bitCount.toNat + 7) / 8 := by
  rw [writeArtifact_eq, List.length_append, length_artifactHeader, length_bitRegion, State.m]

/-- Reading back what the writer emits, with any bytes after it. -/
theorem readArtifact_writeArtifact_append (s : State) (extra : List Byte) :
    readArtifact (writeArtifact s ++ extra) =
      .ok { bitCount := s.bitCount, hashCount := s.hashCount, cells := (List.range s.bitCount.toNat).map s.bits.get } := by
  have hlen : ¬ (bitRegion s.bits s.m ++ extra).length < (s.bitCount.toNat + 7) / 8 := by
    rw [List.length_append, length_bitRegion, State.m]
    omega
  have hcells : (List.range s.bitCount.toNat).map (regionCell (bitRegion s.bits s.m ++ extra)) =
      (List.range s.bitCount.toNat).map s.bits.get :=
    List.map_congr_left fun j hj => regionCell_bitRegion_append s.bits extra (List.mem_range.mp hj)
  rw [writeArtifact_eq, List.append_assoc, readArtifact_header_append, if_neg hlen, hcells]

/-- A proper part of an artifact, the magic in it, is truncated: within the header, or within the bit region. -/
theorem readArtifact_take_writeArtifact (s : State) {n : Nat} (h4 : 4 ≤ n) (hn : n < (writeArtifact s).length) :
    readArtifact ((writeArtifact s).take n) = .error .truncated := by
  obtain hhead | hregion := Nat.lt_or_ge n 12
  · refine readArtifact_short ?_ ((List.length_take_le _ _).trans_lt hhead)
    rw [List.take_take, Nat.min_eq_left h4]
    exact take_four_artifactHeader_append _ _ _
  · have hlen := length_writeArtifact s
    rw [writeArtifact_eq, List.take_append, List.take_of_length_le hregion, readArtifact_header_append, if_pos]
    rw [List.length_take, length_artifactHeader]
    omega

/-! ### Construction from raw cells (R144, I19) -/

/-- Bit `31-j` of a packed word is cell `32w + j` of the list (R208). -/
theorem getLsbD_cellsWord (cells : List Bool) (w : Nat) {j : Nat} (hj : j < 32) :
    (cellsWord cells w).getLsbD (31 - j) = cells.getD (32 * w + j) false := by
  rw [cellsWord, BitVec.getLsbD_eq_getMsbD, show 32 - 1 - (31 - j) = j by omega, BitVec.getMsbD_ofFnBE]
  simp [hj, show 31 - j < 32 by omega]

/-- The window writes of the packed words or the listed cells into the filter. -/
theorem get_performAll_restoreWords {a : Artifact} {s : State} (hb : s.busy = false) (hc : s.configured = true)
    (hm : s.bitCount = a.bitCount) {j : Nat} (hj : j < s.m) :
    (performAll (restoreWords a) s).bits.get j = (s.bits.get j || a.cells.getD j false) := by
  have hored := (ored_performAll hb hc (cellsWord a.cells)).get hj
  rw [getLsbD_cellsWord _ _ (Nat.mod_lt j (by decide)), Nat.div_add_mod] at hored
  rw [restoreWords, ← hm]
  exact hored

/-- Settles O60: the round trip, the rejected streams, and construction from raw cells. -/
theorem artifactRoundTrip : Obligations.ArtifactRoundTrip := by
  refine ⟨fun s extra => ⟨length_writeArtifact s, readArtifact_writeArtifact_append s extra⟩,
    fun _ => readArtifact_wrong_magic, fun _ => readArtifact_short, fun s _ => readArtifact_take_writeArtifact s,
    fun a s hb hc hm hlen hclear => ⟨if_pos hlen, fun j hj => ?_⟩, fun _ hlen => if_neg hlen⟩
  have hjm : j < s.m := by rwa [State.m, hm, ← hlen]
  rw [get_performAll_restoreWords hb hc hm hjm, hclear j hjm, Bool.false_or, List.getD_eq_getElem _ _ hj]

end Sys2Proof.Machine
end
